-- ==== Sys2Proof/Word.lean ====
section
/-! DEFINITION. The two widths of this hardware: bytes (registers, memory cells) and 16-bit words (PC, addresses);
00_scope.md R5. Arithmetic on both is BitVec's, modulo the width and never trapping (R7). -/

namespace Sys2Proof

/-- An 8-bit value, "u8" in the source (R5); bit 0 is the least significant bit (R6). -/
abbrev Byte := BitVec 8

/-- A 16-bit address or word, "u16" in the source (R5). -/
abbrev Word := BitVec 16

end Sys2Proof
end

