-- ==== Sys2Proof/Config.lean ====
section
/-! DEFINITION. The sizes that are fixed for this machine (00_scope.md R4). R4 makes every parameter a fixed number but
two: `InitialMemory`, which is data of `Machine.State` (the memory of the state a run starts from; log 1), and the
signal-level interface, which no rule reads (log 12). No instruction of the spec has an undefined result, so there is
no free value here. The other literals of R4 (addresses, reset values, flag positions) stand in Machine/Params.lean. -/

namespace Sys2Proof.Config

/-- Number of byte cells, addresses 0x0000 to 0xFFFF (R4, R30). -/
def memorySize : Nat := 65536

/-- Bytes of the longest instruction, format ABS (R55). -/
def longestInstr : Nat := 3

end Sys2Proof.Config
end

