-- ==== Sys2Proof/Machine/Bytes.lean ====
section
/-! DEFINITION. Byte-order helpers: the two halves of a word and the concatenation `{h, l}` (00_scope.md R6; 20_memory.md
R36). Every word that lives in memory is put together and taken apart here and nowhere else. -/

namespace Sys2Proof.Machine

/-- `w[7:0]` (R6). -/
def lowByte (w : Word) : Byte := w.setWidth 8

/-- `w[15:8]` (R6). -/
def highByte (w : Word) : Byte := (w >>> 8).setWidth 8

/-- `{h, l}` = `h * 256 + l`, "which the source writes `low | (high << 8)`" (R6). -/
def joinBytes (h l : Byte) : Word := l.setWidth 16 ||| (h.setWidth 16 <<< 8)

end Sys2Proof.Machine
end

