-- ==== Sys2Proof/Machine/Memory.lean ====
section
/-! DEFINITION. The 65536-byte memory (10_state.md R15; 20_memory.md R30 to R36) as a sparse list in one canonical form:
addresses strictly rising, all inside the address space, no entry equal to what an unlisted address reads as. Every
memory image of 65536 bytes is exactly one such list, so a statement for every memory is a statement for every
`InitialMemory` (R4, D10). -/

namespace Sys2Proof.Machine

/-- Sparse memory contents. -/
abbrev Memory := List Host.Cell

/-- What an unlisted address reads as. DESIGN CHOICE (log 1, unsafe where a claim fixes a memory that does not list the
cell): the spec leaves the contents the host did not write open (D10, N7). 0xFF is no opcode, so executing a cell that
nothing has written ends in the fault and never in a good end. -/
def Memory.unlisted : Byte := 0xFF#8

/-- The byte at a numeric address. -/
def Memory.get : Memory → Nat → Byte
  | [], _ => Memory.unlisted
  | (k, v) :: m, n => if k = n then v else Memory.get m n

/-- `MemRead(addr, 1)` (R33): total, no side effect. -/
def Memory.read (m : Memory) (a : Word) : Byte := m.get a.toNat

/-- Put one byte at a numeric address, keeping the canonical form: writing the unlisted value removes the entry. -/
def Memory.put : Memory → Nat → Byte → Memory
  | [], n, v => if v = Memory.unlisted then [] else [(n, v)]
  | (k, w) :: m, n, v =>
    if n < k then
      if v = Memory.unlisted then (k, w) :: m else (n, v) :: (k, w) :: m
    else if n = k then
      if v = Memory.unlisted then m else (n, v) :: m
    else (k, w) :: Memory.put m n v

/-- `MemWrite(addr, 1, v)` (R34): total, that one cell changes and nothing else. -/
def Memory.write (m : Memory) (a : Word) (v : Byte) : Memory := m.put a.toNat v

/-- `MemRead(addr, 2)` (R35): little-endian, `addr + 1` modulo 65536. -/
def Memory.readWord (m : Memory) (a : Word) : Word := joinBytes (m.read (a + 1)) (m.read a)

/-- Canonical from address `lo` on: rising addresses inside the space, no entry equal to the unlisted byte. -/
def Memory.wfFrom : Nat → Memory → Bool
  | _, [] => true
  | lo, (k, v) :: m =>
    decide (lo ≤ k) && decide (k < Config.memorySize) && decide (v ≠ Memory.unlisted) && Memory.wfFrom (k + 1) m

/-- The canonical form of a memory. -/
def Memory.wf (m : Memory) : Bool := Memory.wfFrom 0 m

end Sys2Proof.Machine
end

