-- ==== Sys2Proof/Machine/Params.lean ====
section
/-! DEFINITION. The numeric literals of 00_scope.md R4, each once. UNVERIFIED against any code or part (log 11): the
source calls them normative and unaudited (N3, G3). -/

namespace Sys2Proof.Machine

/-- Base address of the stack page (R4, R12, R39). -/
def stackBase : Word := 0x0100#16

/-- Address of the low byte of the reset vector (R4, R31). -/
def resetVector : Word := 0xFFFC#16

/-- Value of `A`, `X` and `Y` after `Reset()` (R130). -/
def resetReg : Byte := 0x00#8

/-- Value of `SP` after `Reset()` (R130). -/
def resetSP : Byte := 0xFD#8

/-- Value of `P` after `Reset()` (R130). -/
def resetP : Byte := 0x24#8

/-- The bit of `P` that is Zero (R13). -/
def zeroBit : Nat := 1

/-- The bit of `P` that is Negative (R13). -/
def negativeBit : Nat := 7

end Sys2Proof.Machine
end

