-- ==== Sys2Proof/Syntax.lean ====
section
/-! DEFINITION. The instructions (30_encoding.md R58), their mnemonics and formats (R55), and the source form of an
instruction in the assembler (R62). -/

namespace Sys2Proof

/-- The fourteen mnemonics of the opcode table (R58); one per row of spec/opcode_table.json. -/
inductive Mnemonic where
  | lda | ldx | ldy
  | tax | txa | tay | tya
  | inx | dex | iny | dey
  | jsr | rts | brk
  deriving DecidableEq, Repr

/-- The three instruction formats (R55): opcode alone; opcode and `imm`; opcode, `lo`, `hi`. -/
inductive Format where
  | imp | imm | abs
  deriving DecidableEq, Repr

/-- An instruction: one constructor per row of spec/opcode_table.json, with the operand its format gives it. Every
value of an operand byte is legal (R59), so the operand types have exactly the widths of R55 and R56. -/
inductive Instr where
  | lda (imm : Byte)
  | ldx (imm : Byte)
  | ldy (imm : Byte)
  | tax
  | txa
  | tay
  | tya
  | inx
  | dex
  | iny
  | dey
  | jsr (addr : Word)
  | rts
  | brk
  deriving DecidableEq, Repr

/-- The operand as written in assembler source (R62): none, `#$hh`, or `$hhhh`. The number is what the digits spell;
WellFormed.lean checks that it has the width the form allows. -/
inductive AsmOperand where
  | none
  | immediate (n : Nat)
  | absolute (n : Nat)
  deriving DecidableEq, Repr

/-- One line of assembler source (R62): a mnemonic and an operand. Labels, expressions, directives and
pseudo-instructions do not exist (R62, R63). -/
structure AsmLine where
  mnemonic : Mnemonic
  operand : AsmOperand
  deriving DecidableEq, Repr

/-- The source line of an instruction (R62). -/
def Instr.toAsm : Instr → AsmLine
  | .lda imm => ⟨.lda, .immediate imm.toNat⟩
  | .ldx imm => ⟨.ldx, .immediate imm.toNat⟩
  | .ldy imm => ⟨.ldy, .immediate imm.toNat⟩
  | .tax => ⟨.tax, .none⟩
  | .txa => ⟨.txa, .none⟩
  | .tay => ⟨.tay, .none⟩
  | .tya => ⟨.tya, .none⟩
  | .inx => ⟨.inx, .none⟩
  | .dex => ⟨.dex, .none⟩
  | .iny => ⟨.iny, .none⟩
  | .dey => ⟨.dey, .none⟩
  | .jsr addr => ⟨.jsr, .absolute addr.toNat⟩
  | .rts => ⟨.rts, .none⟩
  | .brk => ⟨.brk, .none⟩

/-- The row of the opcode table an instruction belongs to. -/
def Instr.mnemonic (i : Instr) : Mnemonic := i.toAsm.mnemonic

end Sys2Proof
end

