-- ==== Sys2Proof/Machine/State.lean ====
section
/-! DEFINITION. The state of the machine (10_state.md section 1: this tuple "and nothing else"), the reasons a step can
stop, and the state after reset. -/

namespace Sys2Proof.Machine

/-- The general registers (R10). They are named, not numbered: the opcode alone picks them. -/
inductive Reg where
  | A | X | Y
  deriving DecidableEq, Repr

/-- The run-state latch `RUN` (R16). -/
inductive RunState where
  /-- Power applied, never reset. -/
  | uninit
  /-- "executing validly": the only value in which a step is enabled (R72). -/
  | running
  /-- `BRK` was executed (R100). -/
  | halted
  /-- An unknown opcode was fetched (R101, R110). -/
  | faulted
  deriving DecidableEq, Repr

/-- Everything the spec gives the machine (10_state.md; R19 and R20: there is no other state). -/
structure State where
  /-- Accumulator (R10). -/
  a : Byte
  /-- General register `X` (R10). -/
  x : Byte
  /-- General register `Y` (R10). -/
  y : Byte
  /-- Program counter: the address of the next byte to fetch (R11). -/
  pc : Word
  /-- Stack pointer: offset of the next free byte in the stack page (R12). -/
  sp : Byte
  /-- Status register: `N` bit 7, `Z` bit 1, six inert bits (R13, R14). -/
  p : Byte
  /-- The memory image (R15). -/
  mem : Memory
  /-- Run-state latch (R16). -/
  run : RunState
  /-- Fault latch `FAULT_OP`; `none` is the spec's "no value" (R17; log 7). -/
  faultOp : Option Byte
  /-- Fault latch `FAULT_ADDR`; `none` is the spec's "no value" (R17; log 7). -/
  faultAddr : Option Word
  deriving DecidableEq, Repr

/-- Why the machine has no step. The hardware's own exception `IllegalOpcode` is NOT here: it is a next state with
`RUN = FAULTED` (R110; log 4). These are the stuck states of R72 (log 3). -/
inductive Fault where
  /-- Raised by `step` in `UNINIT`: no step before the first reset (R72, R132, D3). Safe: the model has no run where
  the source's software would run from arbitrary values. -/
  | stepBeforeReset
  /-- Raised by `step` in `HALTED`: no step after `BRK` (R72, D4). Safe: the model gives no meaning to a
  continuation. -/
  | stepAfterHalt
  /-- Raised by `step` in `FAULTED`: no step after the exception (R72, R119, D5). Safe: only `Reset()` leaves it. -/
  | stepAfterFault
  deriving DecidableEq, Repr

/-- Why the model gives no meaning. -/
inductive Refusal where
  /-- Raised by an arm of `exec` whose instruction has no meaning yet. Safe. No arm of this model raises it. -/
  | notModelled (mnemonic : String)
  deriving DecidableEq, Repr

/-- The machine right after `Reset()` (R130) with nothing placed in memory: `PC` is what the two unlisted vector cells
spell (DESIGN CHOICE through `Memory.unlisted`; log 1, log 2). `applyReset` in Machine/Ops.lean is `Reset()` on any
memory. -/
def State.reset : State where
  a := resetReg
  x := resetReg
  y := resetReg
  pc := Memory.readWord [] resetVector
  sp := resetSP
  p := resetP
  mem := []
  run := .running
  faultOp := none
  faultAddr := none

end Sys2Proof.Machine
end

