-- ==== Sys2Proof/Machine/Flags.lean ====
section
/-! DEFINITION. The ALU's flag logic, whole: `SetZN` (10_state.md R18). No other flag is ever computed (R14, R94). -/

namespace Sys2Proof.Machine

/-- `Z` = `P[1]` (R13). -/
def zeroFlag (p : Byte) : Bool := p.getLsbD zeroBit

/-- `N` = `P[7]` (R13). -/
def negativeFlag (p : Byte) : Bool := p.getLsbD negativeBit

/-- `SetZN(v)` as a function of the result byte and the prior status register (R18): bits 6, 5, 4, 3, 2, 0 are kept,
`Z` says whether the result is 0, `N` is bit 7 of the result. -/
def setZN (v p : Byte) : Byte := (p &&& 0x7D#8) ||| (if v = 0x00#8 then 0x02#8 else 0x00#8) ||| (v &&& 0x80#8)

end Sys2Proof.Machine
end

