-- ==== Sys2Proof/Machine/Ops.lean ====
section
/-! DEFINITION. The named operations over registers and memory: register access, the fetch and stack primitives of
20_memory.md (R37 to R43), the one exception (60_exceptions.md R110), the halt (R116) and `Reset()`
(70_reset_and_hazards.md R130). The hardware has no return from exception (R119). -/

namespace Sys2Proof.Machine

/-- Read of a general register (R10). -/
def State.readReg (s : State) : Reg → Byte
  | .A => s.a
  | .X => s.x
  | .Y => s.y

/-- Write of a general register: all 8 bits, no other state (R10). -/
def State.writeReg (s : State) (r : Reg) (v : Byte) : State :=
  match r with
  | .A => { s with a := v }
  | .X => { s with x := v }
  | .Y => { s with y := v }

/-- Write of `PC` (R11). -/
def State.setPc (s : State) (w : Word) : State := { s with pc := w }

/-- Write of `SP` (R12). -/
def State.setSp (s : State) (v : Byte) : State := { s with sp := v }

/-- Write of `P` (R13). -/
def State.setP (s : State) (v : Byte) : State := { s with p := v }

/-- Replacement of the memory image (R15). -/
def State.setMem (s : State) (m : Memory) : State := { s with mem := m }

/-- Write of `RUN` (R16). -/
def State.setRun (s : State) (r : RunState) : State := { s with run := r }

/-- Write of the two fault latches (R17). -/
def State.setLatches (s : State) (op : Option Byte) (addr : Option Word) : State :=
  { s with faultOp := op, faultAddr := addr }

/-- A result-producing instruction's write: the destination register takes the result byte and `SetZN` runs on it
(R10, R18). -/
def State.writeResult (s : State) (r : Reg) (v : Byte) : State := (s.writeReg r v).setP (setZN v s.p)

/-- `FetchByte()` (R37): the byte at `PC`, then `PC + 1`; the only way `PC` advances. -/
def fetchByte (s : State) : Byte × State := (s.mem.read s.pc, s.setPc (s.pc + 1))

/-- `FetchWord()` (R38): two fetches, low byte first. -/
def fetchWord (s : State) : Word × State :=
  let lo := fetchByte s
  let hi := fetchByte lo.2
  (joinBytes hi.1 lo.1, hi.2)

/-- The stack address of a stack pointer (R39): `0x0100 | zext_16(SP)`. -/
def stackAddrOf (sp : Byte) : Word := stackBase ||| sp.setWidth 16

/-- `StackAddr()` (R39). -/
def stackAddr (s : State) : Word := stackAddrOf s.sp

/-- `PushByte(v)` (R40): write, then decrement `SP` modulo 256. -/
def pushByte (v : Byte) (s : State) : State :=
  (s.setMem (s.mem.write (stackAddr s) v)).setSp (s.sp - 1)

/-- `PopByte()` (R41): increment `SP` modulo 256, then read; memory unchanged. -/
def popByte (s : State) : Byte × State :=
  let t := s.setSp (s.sp + 1)
  (t.mem.read (stackAddr t), t)

/-- `PushWord(w)` (R42): the high byte first, then the low byte. -/
def pushWord (w : Word) (s : State) : State := pushByte (lowByte w) (pushByte (highByte w) s)

/-- `PopWord()` (R43): the low byte first, then the high byte. -/
def popWord (s : State) : Word × State :=
  let lo := popByte s
  let hi := popByte lo.2
  (joinBytes hi.1 lo.1, hi.2)

/-- Taking the one exception, `raise IllegalOpcode(op, addr)` (R110): its whole effect. Nothing is saved on the stack,
there is no handler, `PC` stays where the opcode fetch left it (R111, R118). -/
def raiseIllegalOpcode (op : Byte) (addr : Word) (s : State) : State :=
  (s.setLatches (some op) (some addr)).setRun .faulted

/-- `halt` (R100, R116): `RUN <- HALTED`, nothing else. -/
def halt (s : State) : State := s.setRun .halted

/-- `Reset()` (R130): the same effect in every run state (R131); memory is kept, the fault latches lose their value. -/
def applyReset (s : State) : State where
  a := resetReg
  x := resetReg
  y := resetReg
  pc := s.mem.readWord resetVector
  sp := resetSP
  p := resetP
  mem := s.mem
  run := .running
  faultOp := none
  faultAddr := none

end Sys2Proof.Machine
end

