-- ==== Sys2Proof/Machine/Halt.lean ====
section
/-! DEFINITION. `BRK` (45_halt_and_illegal.md R100, R102): the only instruction with a system-level effect, which is to
stop. The 242 unknown opcodes (R101) are no instructions; Machine/Fetch.lean and Machine/Step.lean handle them. -/

namespace Sys2Proof.Machine

/-- `BRK` (R100): halt; nothing is pushed, no vector is read, `P` is unchanged. -/
def execBrk (s : State) : Host.Outcome State Fault Refusal := .next (halt s)

end Sys2Proof.Machine
end

