-- ==== Sys2Proof/Machine/IncDec.lean ====
section
/-! DEFINITION. Increment and decrement instructions (43_increment_decrement.md R90 to R94): modulo 256, no carry or
borrow recorded, the flags from the wrapped result. -/

namespace Sys2Proof.Machine

/-- `r <- r +8 1; SetZN(r)` (R94). -/
def increment (r : Reg) (s : State) : State := s.writeResult r (s.readReg r + 1)

/-- `r <- r -8 1; SetZN(r)` (R94). -/
def decrement (r : Reg) (s : State) : State := s.writeResult r (s.readReg r - 1)

/-- `INX` (R90). -/
def execInx (s : State) : Host.Outcome State Fault Refusal := .next (increment .X s)

/-- `DEX` (R91). -/
def execDex (s : State) : Host.Outcome State Fault Refusal := .next (decrement .X s)

/-- `INY` (R92). -/
def execIny (s : State) : Host.Outcome State Fault Refusal := .next (increment .Y s)

/-- `DEY` (R93). -/
def execDey (s : State) : Host.Outcome State Fault Refusal := .next (decrement .Y s)

end Sys2Proof.Machine
end

