-- ==== Sys2Proof/Machine/Load.lean ====
section
/-! DEFINITION. Load-immediate instructions (41_load_immediate.md R80 to R83). The operand has been fetched (R70). -/

namespace Sys2Proof.Machine

/-- Load a register with a byte and recompute `Z` and `N` (R83). -/
def loadImmediate (r : Reg) (imm : Byte) (s : State) : State := s.writeResult r imm

/-- `LDA #imm` (R80). -/
def execLda (imm : Byte) (s : State) : Host.Outcome State Fault Refusal := .next (loadImmediate .A imm s)

/-- `LDX #imm` (R81). -/
def execLdx (imm : Byte) (s : State) : Host.Outcome State Fault Refusal := .next (loadImmediate .X imm s)

/-- `LDY #imm` (R82). -/
def execLdy (imm : Byte) (s : State) : Host.Outcome State Fault Refusal := .next (loadImmediate .Y imm s)

end Sys2Proof.Machine
end

