-- ==== Sys2Proof/Machine/Subroutine.lean ====
section
/-! DEFINITION. Subroutine call and return (44_subroutine.md R95, R96). -/

namespace Sys2Proof.Machine

/-- `JSR addr` (R95): both operand bytes have been fetched, so `PC - 1` is the address of the instruction's last byte;
it is pushed, then `PC <- addr`. -/
def execJsr (addr : Word) (s : State) : Host.Outcome State Fault Refusal :=
  .next ((pushWord (s.pc - 1) s).setPc addr)

/-- `RTS` (R96): pop a word, `PC <- value +16 1`. -/
def execRts (s : State) : Host.Outcome State Fault Refusal :=
  let value := popWord s
  .next (value.2.setPc (value.1 + 1))

end Sys2Proof.Machine
end

