-- ==== Sys2Proof/Machine/Transfer.lean ====
section
/-! DEFINITION. Register transfer instructions (42_transfer.md R85 to R89). -/

namespace Sys2Proof.Machine

/-- Copy all 8 bits of the source register, which stays as it was, and recompute `Z` and `N` from them (R89). -/
def transfer (src dst : Reg) (s : State) : State := s.writeResult dst (s.readReg src)

/-- `TAX` (R85). -/
def execTax (s : State) : Host.Outcome State Fault Refusal := .next (transfer .A .X s)

/-- `TXA` (R86). -/
def execTxa (s : State) : Host.Outcome State Fault Refusal := .next (transfer .X .A s)

/-- `TAY` (R87). -/
def execTay (s : State) : Host.Outcome State Fault Refusal := .next (transfer .A .Y s)

/-- `TYA` (R88). -/
def execTya (s : State) : Host.Outcome State Fault Refusal := .next (transfer .Y .A s)

end Sys2Proof.Machine
end

