-- ==== Sys2Proof/Machine/Dispatch.lean ====
section
/-! DEFINITION. The dispatch of 40_step_cycle.md R70: one arm per instruction. The state is the one the fetch left, with
`PC` past the instruction's bytes. -/

namespace Sys2Proof.Machine

/-- The effect of one instruction, after its bytes have been fetched (R70). -/
def exec (i : Instr) (s : State) : Host.Outcome State Fault Refusal :=
  match i with
  | .lda imm => Sys2Proof.Machine.execLda imm s
  | .ldx imm => Sys2Proof.Machine.execLdx imm s
  | .ldy imm => Sys2Proof.Machine.execLdy imm s
  | .tax => Sys2Proof.Machine.execTax s
  | .txa => Sys2Proof.Machine.execTxa s
  | .tay => Sys2Proof.Machine.execTay s
  | .tya => Sys2Proof.Machine.execTya s
  | .inx => Sys2Proof.Machine.execInx s
  | .dex => Sys2Proof.Machine.execDex s
  | .iny => Sys2Proof.Machine.execIny s
  | .dey => Sys2Proof.Machine.execDey s
  | .jsr addr => Sys2Proof.Machine.execJsr addr s
  | .rts => Sys2Proof.Machine.execRts s
  | .brk => Sys2Proof.Machine.execBrk s

end Sys2Proof.Machine
end

