-- ==== Sys2Proof/Decode.lean ====
section
/-! DEFINITION. The decoder, total on any bytes and rejecting by name, then the encoder, both written from the tables of
30_encoding.md (R55, R57, R58); then the assembler's two directions (R62). -/

namespace Sys2Proof

/-- The format of each row (R58). -/
def Mnemonic.format : Mnemonic → Format
  | .lda | .ldx | .ldy => .imm
  | .tax | .txa | .tay | .tya => .imp
  | .inx | .dex | .iny | .dey => .imp
  | .jsr => .abs
  | .rts | .brk => .imp

/-- Length in bytes of an instruction of the format, opcode included (R55, R57). -/
def Format.length : Format → Nat
  | .imp => 1
  | .imm => 2
  | .abs => 3

/-- Length in bytes of an instruction (R57). -/
def Instr.length (i : Instr) : Nat := i.mnemonic.format.length

/-- The opcode dispatch ROM (R64): from the whole opcode byte to its handler; `none` for each of the 242 byte values
outside the table (R59). All eight bits are compared, none is a sub-field (R55). -/
def Mnemonic.ofOpcode (op : Byte) : Option Mnemonic :=
  match op.toNat with
  | 0xA9 => some .lda
  | 0xA2 => some .ldx
  | 0xA0 => some .ldy
  | 0xAA => some .tax
  | 0x8A => some .txa
  | 0xA8 => some .tay
  | 0x98 => some .tya
  | 0xE8 => some .inx
  | 0xCA => some .dex
  | 0xC8 => some .iny
  | 0x88 => some .dey
  | 0x20 => some .jsr
  | 0x60 => some .rts
  | 0x00 => some .brk
  | _ => none

/-- Why bytes are not an instruction. -/
inductive DecodeError where
  /-- No byte at all. -/
  | noBytes
  /-- The opcode byte is none of the 14 of R58 (R59). -/
  | illegalOpcode (op : Byte)
  /-- The bytes end before the operand the opcode's format requires (R55). -/
  | missingOperand (m : Mnemonic)
  deriving DecidableEq, Repr

/-- Format IMM: the operand is the byte after the opcode, used as it stands (R56). -/
def decodeImm (m : Mnemonic) (mk : Byte → Instr) : List Byte → Except DecodeError (Instr × List Byte)
  | imm :: rest => .ok (mk imm, rest)
  | [] => .error (.missingOperand m)

/-- Format ABS: the operand is `{hi, lo}`, the low byte first in memory (R56). -/
def decodeAbs (m : Mnemonic) (mk : Word → Instr) : List Byte → Except DecodeError (Instr × List Byte)
  | lo :: hi :: rest => .ok (mk (Machine.joinBytes hi lo), rest)
  | _ => .error (.missingOperand m)

/-- The operand of a known row, from the bytes after the opcode (R55, R56). -/
def decodeOperand (m : Mnemonic) (rest : List Byte) : Except DecodeError (Instr × List Byte) :=
  match m with
  | .lda => decodeImm .lda .lda rest
  | .ldx => decodeImm .ldx .ldx rest
  | .ldy => decodeImm .ldy .ldy rest
  | .tax => .ok (.tax, rest)
  | .txa => .ok (.txa, rest)
  | .tay => .ok (.tay, rest)
  | .tya => .ok (.tya, rest)
  | .inx => .ok (.inx, rest)
  | .dex => .ok (.dex, rest)
  | .iny => .ok (.iny, rest)
  | .dey => .ok (.dey, rest)
  | .jsr => decodeAbs .jsr .jsr rest
  | .rts => .ok (.rts, rest)
  | .brk => .ok (.brk, rest)

/-- The decoder: the instruction at the front of the bytes and the bytes after it (R55, R57, R60). It needs no state
other than the bytes (R64). -/
def decode : List Byte → Except DecodeError (Instr × List Byte)
  | [] => .error .noBytes
  | op :: rest =>
    match Mnemonic.ofOpcode op with
    | none => .error (.illegalOpcode op)
    | some m => decodeOperand m rest

/-- The opcode byte of a row (R58, the binary table). -/
def Mnemonic.opcode : Mnemonic → Byte
  | .brk => 0b00000000#8
  | .jsr => 0b00100000#8
  | .rts => 0b01100000#8
  | .dey => 0b10001000#8
  | .txa => 0b10001010#8
  | .tya => 0b10011000#8
  | .ldy => 0b10100000#8
  | .ldx => 0b10100010#8
  | .tay => 0b10101000#8
  | .lda => 0b10101001#8
  | .tax => 0b10101010#8
  | .iny => 0b11001000#8
  | .dex => 0b11001010#8
  | .inx => 0b11101000#8

/-- The operand bytes of an instruction, in ascending address order (R55, R36). -/
def Instr.operandBytes : Instr → List Byte
  | .lda imm | .ldx imm | .ldy imm => [imm]
  | .jsr addr => [Machine.lowByte addr, Machine.highByte addr]
  | .tax | .txa | .tay | .tya | .inx | .dex | .iny | .dey | .rts | .brk => []

/-- The encoder: the bytes of an instruction in ascending address order (R55). -/
def encode (i : Instr) : List Byte := i.mnemonic.opcode :: i.operandBytes

/-- The bytes of an instruction word numbered as spec/opcode_table.json numbers it, the first byte in bits 7 to 0;
always as many bytes as the longest instruction has, the bits from `nbits` on being 0. -/
def tableWordBytes (nbits w : Nat) : List Byte :=
  let v := w % 2 ^ nbits
  [BitVec.ofNat 8 v, BitVec.ofNat 8 (v / 256), BitVec.ofNat 8 (v / 65536)]

/-- The instruction the decoder reads from an instruction word (fixed name of the host). -/
def decodeTableWord (nbits w : Nat) : Option Instr :=
  match decode (tableWordBytes nbits w) with
  | .ok (i, _) => some i
  | .error _ => none

/-- The instruction a source line stands for (R62): only a line whose operand has the form and the width of its
mnemonic's format assembles. -/
def AsmLine.assemble (l : AsmLine) : Option Instr :=
  match l.mnemonic, l.operand with
  | .lda, .immediate n => if n < 256 then some (.lda (BitVec.ofNat 8 n)) else none
  | .ldx, .immediate n => if n < 256 then some (.ldx (BitVec.ofNat 8 n)) else none
  | .ldy, .immediate n => if n < 256 then some (.ldy (BitVec.ofNat 8 n)) else none
  | .jsr, .absolute n => if n < 65536 then some (.jsr (BitVec.ofNat 16 n)) else none
  | .tax, .none => some .tax
  | .txa, .none => some .txa
  | .tay, .none => some .tay
  | .tya, .none => some .tya
  | .inx, .none => some .inx
  | .dex, .none => some .dex
  | .iny, .none => some .iny
  | .dey, .none => some .dey
  | .rts, .none => some .rts
  | .brk, .none => some .brk
  | _, _ => none

/-- The three upper-case letters of a mnemonic (R58, R62). -/
def Mnemonic.letters : Mnemonic → List Char
  | .lda => ['L', 'D', 'A']
  | .ldx => ['L', 'D', 'X']
  | .ldy => ['L', 'D', 'Y']
  | .tax => ['T', 'A', 'X']
  | .txa => ['T', 'X', 'A']
  | .tay => ['T', 'A', 'Y']
  | .tya => ['T', 'Y', 'A']
  | .inx => ['I', 'N', 'X']
  | .dex => ['D', 'E', 'X']
  | .iny => ['I', 'N', 'Y']
  | .dey => ['D', 'E', 'Y']
  | .jsr => ['J', 'S', 'R']
  | .rts => ['R', 'T', 'S']
  | .brk => ['B', 'R', 'K']

/-- The lowest `k` hexadecimal digits of `n`, most significant first (R62). -/
def hexDigits : Nat → Nat → List Char
  | 0, _ => []
  | k + 1, n => hexDigits k (n / 16) ++ [(Nat.digitChar (n % 16)).toUpper]

/-- The characters of an operand (R62): `#$hh` or `$hhhh`. -/
def AsmOperand.chars : AsmOperand → List Char
  | .none => []
  | .immediate n => [' ', '#', '$'] ++ hexDigits 2 n
  | .absolute n => [' ', '$'] ++ hexDigits 4 n

/-- The text of a source line (R62). -/
def AsmLine.chars (l : AsmLine) : List Char := l.mnemonic.letters ++ l.operand.chars

end Sys2Proof
end

