-- ==== Sys2Proof/Machine/Operands.lean ====
section
/-! DEFINITION. Every operand form of the hardware: none (IMP), the byte after the opcode (IMM), the two bytes after it
(ABS); 30_encoding.md R55, R56, R57. The operand comes by `FetchByte()` or `FetchWord()` and is handed on as the bytes
that were fetched, in ascending address order. -/

namespace Sys2Proof.Machine

/-- Fetch the operand of a format (R56): the operand bytes and the state with `PC` past them. -/
def fetchOperand (f : Format) (s : State) : List Byte × State :=
  match f with
  | .imp => ([], s)
  | .imm => let b := fetchByte s; ([b.1], b.2)
  | .abs => let w := fetchWord s; ([lowByte w.1, highByte w.1], w.2)

/-- Fetch the operand of an opcode byte: its length is decided by the opcode alone, and an unknown opcode has none
(R57). -/
def fetchOperandOf (op : Byte) (s : State) : List Byte × State :=
  match Mnemonic.ofOpcode op with
  | some m => fetchOperand m.format s
  | none => ([], s)

end Sys2Proof.Machine
end

