-- ==== Sys2Proof/Machine/Fetch.lean ====
section
/-! DEFINITION. Fetching and decoding the instruction at `PC` (40_step_cycle.md R70), and placing an instruction where the
next step fetches it. -/

namespace Sys2Proof.Machine

/-- The bytes of the instruction at `PC`, the opcode first, and the state with `PC` past them (R70, R57). -/
def fetchInstrBytes (s : State) : List Byte × State :=
  let op := fetchByte s
  let operand := fetchOperandOf op.1 op.2
  (op.1 :: operand.1, operand.2)

/-- The instruction at `PC`, or `none` for an unknown opcode, and the state with `PC` past the bytes consumed (R70). -/
def fetchInstr (s : State) : Option Instr × State :=
  let bs := fetchInstrBytes s
  match decode bs.1 with
  | .ok (i, _) => (some i, bs.2)
  | .error _ => (none, bs.2)

/-- The step on an unknown opcode (R101): the opcode at `fetch_addr`, which is the `PC` of `before`, is reported;
`after` is the state the opcode fetch left, with `PC` advanced by one (R111). -/
def illegalOpcodeStep (before after : State) : State :=
  raiseIllegalOpcode (before.mem.read before.pc) before.pc after

/-- Store bytes at an address and the addresses after it, modulo 65536 (R55). -/
def Memory.writeBytes (m : Memory) (a : Word) : List Byte → Memory
  | [] => m
  | b :: bs => Memory.writeBytes (m.write a b) (a + 1) bs

/-- Place an instruction word where the next step fetches, and make that step enabled: `RUN = RUNNING` and, with it, no
fault report (R17). This stands for the host's load of a program (log 8). -/
def placeInstr (s : State) (nbits w : Nat) : State :=
  ((s.setMem (s.mem.writeBytes s.pc (tableWordBytes nbits w))).setLatches none none).setRun .running

end Sys2Proof.Machine
end

