-- ==== Sys2Proof/Machine/Step.lean ====
section
/-! DEFINITION. `Step()` (40_step_cycle.md R70 to R73): one whole instruction, enabled only when `RUN = RUNNING`. -/

namespace Sys2Proof.Machine

/-- One step (R70). In `UNINIT`, `HALTED` and `FAULTED` no step is enabled (R72; log 3). -/
def step (s : State) : Host.Outcome State Fault Refusal :=
  match s.run with
  | .uninit => .fault .stepBeforeReset
  | .halted => .fault .stepAfterHalt
  | .faulted => .fault .stepAfterFault
  | .running =>
    match fetchInstr s with
    | (some i, t) => exec i t
    | (none, t) => .next (illegalOpcodeStep s t)

/-- The state with an instruction word stored where `step` fetches its next instruction (fixed name of the host;
log 8). -/
def State.withFetchWord (s : State) (nbits w : Nat) : State := placeInstr s nbits w

end Sys2Proof.Machine
end

