-- ==== Sys2Proof/Machine/Bus.lean ====
section
/-! DEFINITION. The bus accesses of one operation, in order, as the table of 20_memory.md R53 gives them. They are no
state: memory has no side effects and there is one agent, so the order shows only in the final state (R53, R46; log 15).
Every access is one byte (R47). -/

namespace Sys2Proof.Machine

/-- One byte access: `R a` or `W a` (R53). -/
inductive Access where
  | read (addr : Word)
  | write (addr : Word) (v : Byte)
  deriving DecidableEq, Repr

/-- The operand fetches of a format, for an opcode at `p` (R53). -/
def operandAccesses (f : Format) (p : Word) : List Access :=
  match f with
  | .imp => []
  | .imm => [.read (p + 1)]
  | .abs => [.read (p + 1), .read (p + 2)]

/-- The stack accesses of an instruction, for an opcode at `p` and the stack pointer `sp` on entry (R53): `JSR` writes the
high byte of `p+2` and then its low byte, `RTS` reads two cells; no other instruction touches the stack. -/
def stackAccesses (m : Mnemonic) (p : Word) (sp : Byte) : List Access :=
  match m with
  | .jsr => [.write (stackAddrOf sp) (highByte (p + 2)), .write (stackAddrOf (sp - 1)) (lowByte (p + 2))]
  | .rts => [.read (stackAddrOf (sp + 1)), .read (stackAddrOf (sp + 2))]
  | .lda | .ldx | .ldy | .tax | .txa | .tay | .tya | .inx | .dex | .iny | .dey | .brk => []

/-- The accesses of one step, in order (R53); none where no step is enabled (R72). -/
def busAccesses (s : State) : List Access :=
  match s.run with
  | .running =>
    .read s.pc ::
      match Mnemonic.ofOpcode (s.mem.read s.pc) with
      | some m => operandAccesses m.format s.pc ++ stackAccesses m s.pc s.sp
      | none => []
  | .uninit | .halted | .faulted => []

/-- The accesses of `Reset()`, in order (R53). -/
def resetAccesses : List Access := [.read resetVector, .read (resetVector + 1)]

/-- The memory after a list of accesses: the writes take effect in order (R46, R34). -/
def replayWrites : List Access → Memory → Memory
  | [], m => m
  | .read _ :: rest, m => replayWrites rest m
  | .write addr v :: rest, m => replayWrites rest (m.write addr v)

end Sys2Proof.Machine
end

