-- ==== Sys2Proof/Machine/Commands.lean ====
section
/-! DEFINITION. The host's side of the machine at the command level (92_eei_decisions.md D1): `Reset()`, `Step()` and the
write of a memory cell, each atomic and between steps (20_memory.md R52; 70_reset_and_hazards.md R131); the outputs; the
boot sequence (R134); runs (R74). The host cannot set a single register (R135). -/

namespace Sys2Proof.Machine

/-- What the host can do to the machine (D1, R52). -/
inductive Command where
  /-- `Reset()` (R130). -/
  | reset
  /-- `Step()` (R70). -/
  | step
  /-- Write one cell of memory (R52). -/
  | write (addr : Word) (v : Byte)
  deriving DecidableEq, Repr

/-- The effect of a memory write of the host: that cell and nothing else, in any run state (R52, R32). -/
def hostWrite (addr : Word) (v : Byte) (s : State) : State := s.setMem (s.mem.write addr v)

/-- The effect of a command of the host. -/
def command (c : Command) (s : State) : Host.Outcome State Fault Refusal :=
  match c with
  | .reset => .next (applyReset s)
  | .step => Sys2Proof.Machine.step s
  | .write addr v => .next (hostWrite addr v s)

/-- The output `halt` (D1): `RUN = HALTED`. -/
def haltOutput (s : State) : Bool := decide (s.run = .halted)

/-- The output `fault` (D1): `RUN = FAULTED`. -/
def faultOutput (s : State) : Bool := decide (s.run = .faulted)

/-- The report of the fault, valid only while `fault` is asserted (D1, R17). -/
def faultReport (s : State) : Option (Byte × Word) :=
  match s.run, s.faultOp, s.faultAddr with
  | .faulted, some op, some addr => some (op, addr)
  | _, _, _ => none

/-- A state the machine may be in at power-on (R16, R132): never reset, no fault report, registers and memory of any
value at all (log 6). -/
def State.PoweredOn (s : State) : Prop := s.run = .uninit ∧ s.faultOp = none ∧ s.faultAddr = none

/-- The host fills memory before the reset (R134 points 1 and 2): the writes, in order. -/
def loadImage : List (Word × Byte) → State → State
  | [], s => s
  | (a, v) :: image, s => loadImage image (hostWrite a v s)

/-- Boot (R134): fill memory, then `Reset()`. -/
def boot (image : List (Word × Byte)) (s : State) : State := applyReset (loadImage image s)

/-- A run of at most `k` steps (R74): step while a step is enabled; a state with no step is the end of the run,
and of a start that is no state of a run (`UNINIT`) it gives that start again (log 18). -/
def runSteps : Nat → State → State
  | 0, s => s
  | k + 1, s =>
    match Sys2Proof.Machine.step s with
    | .next t => runSteps k t
    | .fault _ => s
    | .refused _ => s

end Sys2Proof.Machine
end

