-- ==== Sys2Proof/Safety.lean ====
section
/-! DEFINITION. What counts as a safe run, in the terms claims use (40_step_cycle.md R74; 10_state.md R16, R22). -/

namespace Sys2Proof

open Sys2Proof.Machine

/-- A good end: `BRK` was executed (R74, R116). `HALTED` is the only final state (R16). Of a start that is no state of a run
(`UNINIT`) it says nothing: it is false there (DESIGN CHOICE, log 18). -/
def EndsWell (s : State) : Prop := ∃ k, (runSteps k s).run = .halted

/-- A bad end: an unknown opcode was fetched (R74, R110). False of an `UNINIT` start (DESIGN CHOICE, log 18). -/
def EndsBadly (s : State) : Prop := ∃ k, (runSteps k s).run = .faulted

/-- A safe run never fetches an unknown opcode: started in `RUNNING` it halts or goes on for ever (R74, R138). DESIGN CHOICE,
log 18: the predicate is defined of every start. R16 says only that a state with `RUN = UNINIT` is a state of no run; there the
predicate holds vacuously, since no step is enabled (R72) and `runSteps` stays where it is, and it says nothing of any run. A
start already `HALTED` is at its good end and counts as safe; a start already `FAULTED` is not. -/
def RunsSafely (s : State) : Prop := ∀ k, (runSteps k s).run ≠ .faulted

/-- The fault latches hold a report of an unknown opcode exactly while `RUN = FAULTED` (R17, R110). -/
def LatchesOk (s : State) : Prop :=
  match s.run with
  | .faulted => ∃ op addr, s.faultOp = some op ∧ s.faultAddr = some addr ∧ Mnemonic.ofOpcode op = none
  | .uninit | .running | .halted => s.faultOp = none ∧ s.faultAddr = none

/-- The invariant every command of the host keeps: memory in canonical form, latches as R17 says. -/
def Inv (s : State) : Prop := s.mem.wf = true ∧ LatchesOk s

/-- The register part of R22: `SP` is odd, and `P & 0x7D == 0x24` with not both `Z` and `N` set (R14). -/
def ReachableRegs (s : State) : Prop :=
  s.sp.getLsbD 0 = true ∧ s.p &&& 0x7D#8 = 0x24#8 ∧ ¬ (zeroFlag s.p = true ∧ negativeFlag s.p = true)

end Sys2Proof
end

