-- ==== Sys2Proof/WellFormed.lean ====
section
/-! DEFINITION. The checks on instruction terms. An `Instr` has operands of exactly the widths of its format, and every
value of them is legal (30_encoding.md R55, R59), so what can be ill-formed is a SOURCE LINE (R62): an operand of the
wrong form for the mnemonic, or a number too wide for `hh` or `hhhh`. An instruction is well-formed when its source line
is. -/

namespace Sys2Proof

/-- The operand has the form of the mnemonic's format (R62, R58): none for IMP, `#$hh` for IMM, `$hhhh` for ABS. -/
def AsmLine.operandFits (l : AsmLine) : Bool :=
  match l.mnemonic.format, l.operand with
  | .imp, .none => true
  | .imm, .immediate _ => true
  | .abs, .absolute _ => true
  | _, _ => false

/-- The number has the width of the operand's form: two hexadecimal digits or four (R62). -/
def AsmOperand.inRange : AsmOperand → Bool
  | .none => true
  | .immediate n => decide (n < 256)
  | .absolute n => decide (n < 65536)

/-- A source line that stands for an instruction (R62, R63). -/
def AsmLine.wellFormed (l : AsmLine) : Bool := l.operandFits && l.operand.inRange

/-- A well-formed instruction. -/
def Instr.wellFormed (i : Instr) : Bool := i.toAsm.wellFormed

end Sys2Proof
end

