-- ==== Sys2Proof/Certificates/Slice0/Obligations.lean ====
section
/-! DEFINITION. The statements for the provers, from the numbered rules of spec/. The helper predicates of the namespace
Claims say in the spec's own terms (bits of `P`, bytes at addresses) what a statement says of two states. -/

namespace Sys2Proof.Claims

open Sys2Proof.Machine

/-- Reading any byte of memory gives what it gave before. -/
def SameMemory (s t : State) : Prop := ∀ b : Word, t.mem.read b = s.mem.read b

/-- `RUN` and the fault latches are unchanged. -/
def SameControl (s t : State) : Prop := t.run = s.run ∧ t.faultOp = s.faultOp ∧ t.faultAddr = s.faultAddr

/-- The general registers are unchanged. -/
def SameRegs (s t : State) : Prop := ∀ q : Reg, t.readReg q = s.readReg q

/-- `Z` and `N` are recomputed from the byte `v`, the other six bits are kept (10_state.md R18). -/
def FlagsFrom (v before after : Byte) : Prop :=
  (after.getLsbD 1 = true ↔ v = 0x00#8) ∧ after.getLsbD 7 = v.getLsbD 7 ∧
    ∀ i, i < 8 → i ≠ 1 → i ≠ 7 → after.getLsbD i = before.getLsbD i

/-- From `s` to `t` the register `r` receives the result byte `v`, the flags are recomputed from it, and nothing else but
`PC` changes. -/
def Produces (r : Reg) (v : Byte) (s t : State) : Prop :=
  t.readReg r = v ∧ (∀ q : Reg, q ≠ r → t.readReg q = s.readReg q) ∧ FlagsFrom v s.p t.p ∧ t.sp = s.sp ∧
    SameMemory s t ∧ SameControl s t

/-- From `s` to `t` the word `w` is pushed: its high byte at the stack address of `SP`, its low byte at that of `SP - 1`,
every other byte as before; `SP` goes down by two; nothing else but `PC` changes. What memory reads is said of memories
in canonical form. -/
def Pushes (w : Word) (s t : State) : Prop :=
  t.sp = s.sp - 2 ∧ SameRegs s t ∧ t.p = s.p ∧ SameControl s t ∧
    (s.mem.wf = true →
      t.mem.read (stackAddrOf s.sp) = highByte w ∧ t.mem.read (stackAddrOf (s.sp - 1)) = lowByte w ∧
        ∀ b : Word, b ≠ stackAddrOf s.sp → b ≠ stackAddrOf (s.sp - 1) → t.mem.read b = s.mem.read b)

/-- From `s` to `t` a word is popped: `SP` goes up by two, nothing else but `PC` changes. -/
def Pops (s t : State) : Prop :=
  t.sp = s.sp + 2 ∧ SameRegs s t ∧ t.p = s.p ∧ SameMemory s t ∧ SameControl s t

/-- The word the next `RTS` pops: low byte at the stack address of `SP + 1`, high byte at that of `SP + 2`. -/
def topWord (s : State) : Word :=
  joinBytes (s.mem.read (stackAddrOf (s.sp + 2))) (s.mem.read (stackAddrOf (s.sp + 1)))

/-- Memory holds the bytes from address `a` on, addresses modulo 65536. -/
def BytesAt (s : State) (a : Word) : List Byte → Prop
  | [] => True
  | b :: bs => s.mem.read a = b ∧ BytesAt s (a + 1) bs

/-- A step is enabled and the bytes at `PC` are these. -/
def Fetches (s : State) (bytes : List Byte) : Prop := s.run = .running ∧ BytesAt s s.pc bytes

/-- The fourteen opcode bytes (30_encoding.md R58). -/
def opcodes : List Byte :=
  [0xA9#8, 0xA2#8, 0xA0#8, 0xAA#8, 0x8A#8, 0xA8#8, 0x98#8, 0xE8#8, 0xCA#8, 0xC8#8, 0x88#8, 0x20#8, 0x60#8, 0x00#8]

/-- Inside the stack page 0x0100 to 0x01FF (20_memory.md R31). -/
def InStackPage (b : Word) : Prop := 0x0100 ≤ b.toNat ∧ b.toNat ≤ 0x01FF

/-- The bytes of an instruction as one number, the first byte in bits 7 to 0. -/
def tableWord : List Byte → Nat
  | [] => 0
  | b :: bs => b.toNat + 256 * tableWord bs

/-- Calls minus returns among the first `k` steps of a run. -/
def netCalls : Nat → State → Int
  | 0, _ => 0
  | k + 1, s =>
    match step s with
    | .next t =>
      (if s.mem.read s.pc = 0x20#8 then 1 else if s.mem.read s.pc = 0x60#8 then -1 else 0) + netCalls k t
    | .fault _ => 0
    | .refused _ => 0

/-- `n` `INX` in a row, or `n` of any instruction without operand. -/
def execTimes (i : Instr) : Nat → State → Option State
  | 0, s => some s
  | n + 1, s =>
    match exec i s with
    | .next t => execTimes i n t
    | .fault _ => none
    | .refused _ => none

end Sys2Proof.Claims

open Sys2Proof Sys2Proof.Machine Sys2Proof.Claims

/-! ## Words, memory, fetch and stack primitives -/

/-- 00_scope.md R6: `{h, l}` is `h * 256 + l`, `w[7:0]` is the low byte of `w`, `w[15:8]` its high byte. -/
def Obligations.WordHalvesAndConcatenation : Prop :=
  (∀ h l : Byte, (joinBytes h l).toNat = h.toNat * 256 + l.toNat) ∧
  (∀ w : Word, (lowByte w).toNat = w.toNat % 256 ∧ (highByte w).toNat = w.toNat / 256)

/-- 20_memory.md R34, R32: after a write the cell reads the value and every other cell reads as before. -/
def Obligations.WriteChangesOneCell : Prop :=
  ∀ (m : Memory) (a : Word) (v : Byte), m.wf = true →
    (m.write a v).read a = v ∧ ∀ b : Word, b ≠ a → (m.write a v).read b = m.read b

/-- A write keeps the canonical form of memory (the model's own representation, log 1). -/
def Obligations.WriteKeepsCanonicalForm : Prop :=
  ∀ (m : Memory) (a : Word) (v : Byte), m.wf = true → (m.write a v).wf = true

/-- 10_state.md R15 through the model's representation (log 1): memories in canonical form that read alike at all 65536
addresses are the same data. -/
def Obligations.EqualMemoriesAreEqualData : Prop :=
  ∀ m n : Memory, m.wf = true → n.wf = true → (∀ a : Word, m.read a = n.read a) → m = n

/-- 10_state.md R15, 00_scope.md R4: every image of 65536 bytes is the reading of a memory in canonical form, so a
statement for every memory is a statement for every `InitialMemory`. -/
def Obligations.EveryImageIsAMemory : Prop :=
  ∀ image : Word → Byte, ∃ m : Memory, m.wf = true ∧ ∀ a : Word, m.read a = image a

/-- 20_memory.md R35: a word read is little-endian and its second address wraps. -/
def Obligations.WordReadIsLittleEndian : Prop :=
  ∀ (m : Memory) (a : Word),
    (m.readWord a).toNat = (m.read a).toNat + 256 * (m.read (BitVec.ofNat 16 ((a.toNat + 1) % 65536))).toNat

/-- 20_memory.md R37, R38: `FetchByte` gives the byte at `PC` and advances `PC` by one modulo 65536; `FetchWord` is two of
them, low byte first. Nothing else changes. -/
def Obligations.FetchAdvancesPC : Prop :=
  ∀ s : State,
    (fetchByte s).1 = s.mem.read s.pc ∧
    (fetchByte s).2 = { s with pc := BitVec.ofNat 16 ((s.pc.toNat + 1) % 65536) } ∧
    (fetchWord s).1.toNat = (fetchByte s).1.toNat + 256 * (fetchByte (fetchByte s).2).1.toNat ∧
    (fetchWord s).2 = (fetchByte (fetchByte s).2).2

/-- 30_encoding.md R57: the opcode byte alone decides how many bytes are consumed: two for 0xA9, 0xA2, 0xA0, three for
0x20, one for every other value, known or unknown. -/
def Obligations.LengthDecidedByOpcode : Prop :=
  ∀ s : State,
    (fetchInstr s).2 = s.setPc (s.pc +
      (if s.mem.read s.pc ∈ [0xA9#8, 0xA2#8, 0xA0#8] then 2 else if s.mem.read s.pc = 0x20#8 then 3 else 1))

/-- 20_memory.md R39: the stack address is `0x0100 | SP`, in 0x0100 to 0x01FF; distinct stack pointers have distinct
addresses. -/
def Obligations.StackAddressInPage : Prop :=
  ∀ s : State, (stackAddr s).toNat = 0x0100 + s.sp.toNat ∧ InStackPage (stackAddr s) ∧
    ∀ sp : Byte, stackAddrOf sp = stackAddr s → sp = s.sp

/-- 20_memory.md R40, R41: a push writes and then decrements `SP`, a pop increments `SP` and then reads; modulo 256. -/
def Obligations.PushAndPopByte : Prop :=
  (∀ (v : Byte) (s : State),
    pushByte v s = { s with mem := s.mem.write (stackAddr s) v, sp := BitVec.ofNat 8 ((s.sp.toNat + 255) % 256) }) ∧
  (∀ s : State,
    (popByte s).2 = { s with sp := BitVec.ofNat 8 ((s.sp.toNat + 1) % 256) } ∧
    (popByte s).1 = s.mem.read (BitVec.ofNat 16 (0x0100 + (s.sp.toNat + 1) % 256)))

/-- 20_memory.md R54: `PushWord(v)` and then `PopWord()` gives `v` and the old `SP`, for every `v` and every `SP`. -/
def Obligations.PushPopRoundTrip : Prop :=
  ∀ (v : Word) (s : State), s.mem.wf = true →
    (popWord (pushWord v s)).1 = v ∧ (popWord (pushWord v s)).2.sp = s.sp

/-- 20_memory.md R44: the stack wraps inside its page, silently; a push changes and a pop
reads no cell outside it, and neither raises anything. -/
def Obligations.StackWrapsInsidePage : Prop :=
  ∀ s : State, s.mem.wf = true →
    (s.sp = 0x00#8 → ∀ v : Byte, (pushByte v s).sp = 0xFF#8 ∧ (pushByte v s).mem.read 0x0100#16 = v) ∧
    (s.sp = 0x00#8 → ∀ v w : Byte, (pushByte w (pushByte v s)).mem.read 0x01FF#16 = w) ∧
    (s.sp = 0xFF#8 → (popByte s).2.sp = 0x00#8 ∧ (popByte s).1 = s.mem.read 0x0100#16) ∧
    (s.sp = 0x00#8 → ∀ w : Word,
      (pushWord w s).mem.read 0x0100#16 = highByte w ∧ (pushWord w s).mem.read 0x01FF#16 = lowByte w) ∧
    (s.sp = 0xFE#8 → (popWord s).1 = joinBytes (s.mem.read 0x0100#16) (s.mem.read 0x01FF#16)) ∧
    (∀ (w : Word) (b : Word), ¬ InStackPage b → (pushWord w s).mem.read b = s.mem.read b) ∧
    (∀ m : Memory, (∀ b : Word, InStackPage b → m.read b = s.mem.read b) → (popWord (s.setMem m)).1 = (popWord s).1) ∧
    (∀ w : Word, (pushWord w s).run = s.run) ∧ (popWord s).2.run = s.run

/-! ## Encoding -/

/-- 30_encoding.md R55, R58: some words written out from the encoding tables, one or more of each family. -/
def Obligations.WordsOfTheTableDecode : Prop :=
  decode [0b10101001#8, 0x10#8] = .ok (.lda 0x10#8, []) ∧
  decode [0b10100010#8, 0xFF#8, 0x00#8] = .ok (.ldx 0xFF#8, [0x00#8]) ∧
  decode [0b10101010#8] = .ok (.tax, []) ∧
  decode [0b11101000#8] = .ok (.inx, []) ∧
  decode [0b00100000#8, 0x00#8, 0x90#8] = .ok (.jsr 0x9000#16, []) ∧
  decode [0b01100000#8] = .ok (.rts, []) ∧
  decode [0b00000000#8] = .ok (.brk, []) ∧
  decode [0xFF#8] = .error (.illegalOpcode 0xFF#8)

/-- 30_encoding.md R55 to R60: decoding and encoding agree in both directions. The bytes at the front of a list decode to
`i` with the rest left over exactly when they are the encoding of `i`: no bit is dropped, and each instruction has one
encoding. -/
def Obligations.DecodeExactlyInvertsEncode : Prop :=
  ∀ (bytes rest : List Byte) (i : Instr), decode bytes = .ok (i, rest) ↔ bytes = encode i ++ rest

/-- 30_encoding.md R59: every opcode byte outside the 14 is illegal whatever follows it, and each of the 14 decodes when its
operand bytes, of any value, are there. -/
def Obligations.IllegalOpcodesAreTheOthers : Prop :=
  ∀ (op x y : Byte) (rest : List Byte),
    (op ∉ opcodes → decode (op :: rest) = .error (.illegalOpcode op)) ∧
    (op ∈ opcodes → ∃ i r, decode (op :: x :: y :: rest) = .ok (i, r))

/-- 30_encoding.md R59: 242 byte values are illegal opcodes. -/
def Obligations.CountOfIllegalOpcodes : Prop :=
  ((List.range 256).filter fun n => (Mnemonic.ofOpcode (BitVec.ofNat 8 n)).isNone).length = 242

/-- In the model's abstract form of a source line, which is the model's choice (log 14, DESIGN CHOICE), from 30_encoding.md
section 5: a source line is well-formed exactly when it is the line of an instruction, and that line assembles to the
instruction. -/
def Obligations.AssemblerLinesAreInstructions : Prop :=
  (∀ i : Instr, i.wellFormed = true ∧ i.toAsm.assemble = some i) ∧
  (∀ l : AsmLine, l.wellFormed = true ↔ ∃ i : Instr, l = i.toAsm)

/-! ## The step -/

/-- 40_step_cycle.md section 1: when the bytes at `PC` decode to an instruction, the step is its meaning on the state with `PC`
past its bytes. That `exec` is entered with `PC` past all the bytes is the model's split of a step (log 9, DESIGN CHOICE): R70
enters the handler with `PC` at the opcode's address plus one and lets the handler fetch its operand. -/
def Obligations.StepRunsTheDecodedInstruction : Prop :=
  ∀ (s : State) (i : Instr) (rest : List Byte), s.run = .running →
    decode [s.mem.read s.pc, s.mem.read (s.pc + 1), s.mem.read (s.pc + 2)] = .ok (i, rest) →
    step s = exec i { s with pc := s.pc + BitVec.ofNat 16 i.length }

/-- An instruction word placed with `State.withFetchWord` (the model's hook, log 8) is what the next step runs, for every
instruction and every operand; `exec` is entered with `PC` past its bytes, the model's split of a step (log 9). -/
def Obligations.PlacedInstructionIsRun : Prop :=
  ∀ (i : Instr) (s : State), s.mem.wf = true →
    step (s.withFetchWord (8 * i.length) (tableWord (encode i))) =
      exec i ((s.withFetchWord (8 * i.length) (tableWord (encode i))).setPc (s.pc + BitVec.ofNat 16 i.length))

/-- 40_step_cycle.md R72: a step is enabled if and only if `RUN = RUNNING`. -/
def Obligations.StepEnabledIffRunning : Prop :=
  ∀ s : State, (∃ t, step s = .next t) ↔ s.run = .running

/-- Where no step is enabled the model's step stops with a fault of its own name: the model's choice (log 3). -/
def Obligations.DisabledStepIsANamedFault : Prop :=
  ∀ s : State,
    (s.run = .uninit → step s = .fault .stepBeforeReset) ∧
    (s.run = .halted → step s = .fault .stepAfterHalt) ∧
    (s.run = .faulted → step s = .fault .stepAfterFault)

/-- 40_step_cycle.md R71: `RUN` after a step is decided by the opcode byte: `HALTED` after `BRK`, `FAULTED` after an unknown
opcode, `RUNNING` after the 13 others. -/
def Obligations.OutcomeDecidedByOpcode : Prop :=
  ∀ s : State, s.run = .running →
    ∃ t, step s = .next t ∧
      (t.run = .halted ↔ s.mem.read s.pc = 0x00#8) ∧
      (t.run = .faulted ↔ s.mem.read s.pc ∉ opcodes) ∧
      (t.run = .running ↔ s.mem.read s.pc ∈ opcodes ∧ s.mem.read s.pc ≠ 0x00#8)

/-! ## The instructions: results, flags, frames, completion -/

/-- 10_state.md R18: `SetZN(v)` on a prior status register. -/
def Obligations.SetZNRecomputesZeroAndNegative : Prop :=
  ∀ v p : Byte, FlagsFrom v p (setZN v p) ∧ (zeroFlag (setZN v p) = true ↔ v = 0x00#8) ∧
    negativeFlag (setZN v p) = v.getLsbD 7

/-- 41_load_immediate.md R80, R81, R82: each load completes from every state; the register takes the immediate, `Z` and `N`
are recomputed from it, nothing else changes; as a step, with the two bytes at `PC`, `PC` goes up by two. -/
def Obligations.LoadImmediateInstructions : Prop :=
  ∀ (imm : Byte) (s : State),
    (∃ t, exec (.lda imm) s = .next t ∧ Produces .A imm s t ∧ t.pc = s.pc) ∧
    (∃ t, exec (.ldx imm) s = .next t ∧ Produces .X imm s t ∧ t.pc = s.pc) ∧
    (∃ t, exec (.ldy imm) s = .next t ∧ Produces .Y imm s t ∧ t.pc = s.pc) ∧
    (Fetches s [0xA9#8, imm] → ∃ t, step s = .next t ∧ Produces .A imm s t ∧ t.pc = s.pc + 2) ∧
    (Fetches s [0xA2#8, imm] → ∃ t, step s = .next t ∧ Produces .X imm s t ∧ t.pc = s.pc + 2) ∧
    (Fetches s [0xA0#8, imm] → ∃ t, step s = .next t ∧ Produces .Y imm s t ∧ t.pc = s.pc + 2)

/-- 42_transfer.md R85 to R88: each transfer completes from every state; the destination takes the source's byte, `Z` and `N`
are recomputed from it, nothing else changes; as a step `PC` goes up by one. -/
def Obligations.TransferInstructions : Prop :=
  ∀ s : State,
    (∃ t, exec .tax s = .next t ∧ Produces .X s.a s t ∧ t.pc = s.pc) ∧
    (∃ t, exec .txa s = .next t ∧ Produces .A s.x s t ∧ t.pc = s.pc) ∧
    (∃ t, exec .tay s = .next t ∧ Produces .Y s.a s t ∧ t.pc = s.pc) ∧
    (∃ t, exec .tya s = .next t ∧ Produces .A s.y s t ∧ t.pc = s.pc) ∧
    (Fetches s [0xAA#8] → ∃ t, step s = .next t ∧ Produces .X s.a s t ∧ t.pc = s.pc + 1) ∧
    (Fetches s [0x8A#8] → ∃ t, step s = .next t ∧ Produces .A s.x s t ∧ t.pc = s.pc + 1) ∧
    (Fetches s [0xA8#8] → ∃ t, step s = .next t ∧ Produces .Y s.a s t ∧ t.pc = s.pc + 1) ∧
    (Fetches s [0x98#8] → ∃ t, step s = .next t ∧ Produces .A s.y s t ∧ t.pc = s.pc + 1)

/-- 43_increment_decrement.md R90 to R93: each increment and decrement completes from every state; the register goes up or
down by one modulo 256, `Z` and `N` are recomputed from the wrapped result, nothing else changes; as a step `PC` goes up
by one. -/
def Obligations.IncrementDecrementInstructions : Prop :=
  ∀ s : State,
    (∃ t, exec .inx s = .next t ∧ Produces .X (BitVec.ofNat 8 ((s.x.toNat + 1) % 256)) s t ∧ t.pc = s.pc) ∧
    (∃ t, exec .dex s = .next t ∧ Produces .X (BitVec.ofNat 8 ((s.x.toNat + 255) % 256)) s t ∧ t.pc = s.pc) ∧
    (∃ t, exec .iny s = .next t ∧ Produces .Y (BitVec.ofNat 8 ((s.y.toNat + 1) % 256)) s t ∧ t.pc = s.pc) ∧
    (∃ t, exec .dey s = .next t ∧ Produces .Y (BitVec.ofNat 8 ((s.y.toNat + 255) % 256)) s t ∧ t.pc = s.pc) ∧
    (Fetches s [0xE8#8] →
      ∃ t, step s = .next t ∧ Produces .X (BitVec.ofNat 8 ((s.x.toNat + 1) % 256)) s t ∧ t.pc = s.pc + 1) ∧
    (Fetches s [0xCA#8] →
      ∃ t, step s = .next t ∧ Produces .X (BitVec.ofNat 8 ((s.x.toNat + 255) % 256)) s t ∧ t.pc = s.pc + 1) ∧
    (Fetches s [0xC8#8] →
      ∃ t, step s = .next t ∧ Produces .Y (BitVec.ofNat 8 ((s.y.toNat + 1) % 256)) s t ∧ t.pc = s.pc + 1) ∧
    (Fetches s [0x88#8] →
      ∃ t, step s = .next t ∧ Produces .Y (BitVec.ofNat 8 ((s.y.toNat + 255) % 256)) s t ∧ t.pc = s.pc + 1)

/-- 43_increment_decrement.md R94: `INX` then `DEX`, and `DEX` then `INX`, restore `X`; the same of `INY`, `DEY` and `Y`; `n`
`INX` in a row add `n` to `X` modulo 256, so 256 `INX` restore `X`. -/
def Obligations.IncrementsWrapAndCancel : Prop :=
  ∀ s : State,
    (∃ t u, exec .inx s = .next t ∧ exec .dex t = .next u ∧ u.x = s.x) ∧
    (∃ t u, exec .dex s = .next t ∧ exec .inx t = .next u ∧ u.x = s.x) ∧
    (∃ t u, exec .iny s = .next t ∧ exec .dey t = .next u ∧ u.y = s.y) ∧
    (∃ t u, exec .dey s = .next t ∧ exec .iny t = .next u ∧ u.y = s.y) ∧
    (∀ n : Nat, ∃ t, execTimes .inx n s = some t ∧ t.x = s.x + BitVec.ofNat 8 n) ∧
    (∃ t, execTimes .inx 256 s = some t ∧ t.x = s.x)

/-- 44_subroutine.md R95: `JSR` completes from every state: `PC - 1` is pushed, high byte first, and `PC` takes the target;
as a step, with the three bytes at `PC`, the pushed word is the address of the third byte and the target is what the
operand bytes were before the pushes, wherever the pushes land. -/
def Obligations.JsrCallsSubroutine : Prop :=
  (∀ (addr : Word) (s : State), ∃ t, exec (.jsr addr) s = .next t ∧ t.pc = addr ∧ Pushes (s.pc - 1) s t) ∧
  (∀ (lo hi : Byte) (s : State), Fetches s [0x20#8, lo, hi] →
    ∃ t, step s = .next t ∧ t.pc = joinBytes hi lo ∧ Pushes (s.pc + 2) s t)

/-- 44_subroutine.md R96: `RTS` completes from every state: the word on top of the stack is popped and `PC` takes it plus one,
modulo 65536; memory is not erased. -/
def Obligations.RtsReturnsFromSubroutine : Prop :=
  ∀ s : State,
    (∃ t, exec .rts s = .next t ∧ t.pc = topWord s + 1 ∧ Pops s t) ∧
    (Fetches s [0x60#8] → ∃ t, step s = .next t ∧ t.pc = topWord s + 1 ∧ Pops s t)

/-- 45_halt_and_illegal.md R100: `BRK` completes from every state: `RUN` becomes `HALTED` and nothing else changes; as a step
`PC` is past the one opcode byte; nothing is pushed, `P` is unchanged, and no step is enabled after it. -/
def Obligations.BrkHalts : Prop :=
  ∀ s : State,
    (∃ t, exec .brk s = .next t ∧ t = { s with run := .halted }) ∧
    (Fetches s [0x00#8] → ∃ t, step s = .next t ∧ t = { s with run := .halted, pc := s.pc + 1 } ∧
      ¬ ∃ u, step t = .next u)

/-- 60_exceptions.md R110 (45_halt_and_illegal.md R101): an unknown opcode takes the exception: the latches receive the
opcode and its fetch address, `RUN` becomes `FAULTED`, `PC` is the fetch address plus one, nothing else changes, and no step
is enabled after it. The `PC` clause is no rule of the source but the spec's own decision (D6; U8: a model may equally make
`PC` unobservable there); that the model holds it observable, at that value, is the model's choice (log 5, DEDUCED). -/
def Obligations.UnknownOpcodeFaults : Prop :=
  ∀ s : State, s.run = .running → s.mem.read s.pc ∉ opcodes →
    ∃ t, step s = .next t ∧
      t = { s with
            run := .faulted, faultOp := some (s.mem.read s.pc), faultAddr := some s.pc, pc := s.pc + 1 } ∧
      ¬ ∃ u, step t = .next u

/-! ## Calls and returns over several steps -/

/-- 44_subroutine.md R97: `JSR` at `a`; if later the stack pointer and the two stack cells are as the `JSR` left them and an
`RTS` runs, execution resumes at `a + 3` with the stack pointer back, for every `a` and every `SP`. -/
def Obligations.CallAndReturnPair : Prop :=
  ∀ (s : State) (lo hi : Byte), s.mem.wf = true → Fetches s [0x20#8, lo, hi] →
    ∃ t, step s = .next t ∧ t.pc = joinBytes hi lo ∧
      ∀ u : State, Fetches u [0x60#8] → u.sp = t.sp →
        u.mem.read (stackAddrOf s.sp) = t.mem.read (stackAddrOf s.sp) →
        u.mem.read (stackAddrOf (s.sp - 1)) = t.mem.read (stackAddrOf (s.sp - 1)) →
        ∃ v, step u = .next v ∧ v.pc = s.pc + 3 ∧ v.sp = s.sp ∧ SameRegs u v ∧ v.p = u.p

/-- 20_memory.md R49: a `JSR` whose target is the cell its own push wrote fetches the pushed byte next. -/
def Obligations.PushedByteIsFetchedNext : Prop :=
  ∀ (s : State) (lo hi : Byte), s.mem.wf = true → Fetches s [0x20#8, lo, hi] →
    joinBytes hi lo = stackAddrOf (s.sp - 1) →
    ∃ t, step s = .next t ∧ (fetchByte t).1 = lowByte (s.pc + 2)

/-- 44_subroutine.md R98, 10_state.md R12: along every run from `Reset()`, on any memory, `SP` is 0xFD less two for every call
not yet returned from, modulo 256; so the `n`-th nested `JSR` writes its return address at `0x0100 | (0xFF - 2n)` and
`0x0100 | (0xFE - 2n)`. -/
def Obligations.StackPointerCountsNestedCalls : Prop :=
  ∀ (s : State) (k : Nat),
    (runSteps k (applyReset s)).sp = 0xFD#8 - BitVec.ofInt 8 (2 * netCalls k (applyReset s)) ∧
    ∀ n : Nat, netCalls k (applyReset s) = (n : Int) →
      stackAddr (runSteps k (applyReset s)) = stackAddrOf (0xFF#8 - BitVec.ofNat 8 (2 * (n + 1))) ∧
      stackAddrOf ((runSteps k (applyReset s)).sp - 1) = stackAddrOf (0xFE#8 - BitVec.ofNat 8 (2 * (n + 1)))

/-- 44_subroutine.md R98: calls 1 to 128 use 256 distinct cells, and call `n + 128` uses those of call `n` again. -/
def Obligations.StackHolds128Calls : Prop :=
  (∀ n m : Nat, 1 ≤ n → n < m → m ≤ 128 →
    stackAddrOf (0xFF#8 - BitVec.ofNat 8 (2 * n)) ≠ stackAddrOf (0xFF#8 - BitVec.ofNat 8 (2 * m)) ∧
    stackAddrOf (0xFE#8 - BitVec.ofNat 8 (2 * n)) ≠ stackAddrOf (0xFE#8 - BitVec.ofNat 8 (2 * m))) ∧
  (∀ n m : Nat,
    stackAddrOf (0xFF#8 - BitVec.ofNat 8 (2 * n)) ≠ stackAddrOf (0xFE#8 - BitVec.ofNat 8 (2 * m))) ∧
  (∀ n : Nat, stackAddrOf (0xFF#8 - BitVec.ofNat 8 (2 * (n + 128))) = stackAddrOf (0xFF#8 - BitVec.ofNat 8 (2 * n)) ∧
    stackAddrOf (0xFE#8 - BitVec.ofNat 8 (2 * (n + 128))) = stackAddrOf (0xFE#8 - BitVec.ofNat 8 (2 * n)))

/-! ## Reset and the host -/

/-- 70_reset_and_hazards.md R130: `Reset()`, from any state. -/
def Obligations.ResetEffect : Prop :=
  ∀ s : State,
    (applyReset s).a = 0x00#8 ∧ (applyReset s).x = 0x00#8 ∧ (applyReset s).y = 0x00#8 ∧ (applyReset s).sp = 0xFD#8 ∧
    (applyReset s).p = 0x24#8 ∧
    (applyReset s).pc.toNat = (s.mem.read 0xFFFC#16).toNat + 256 * (s.mem.read 0xFFFD#16).toNat ∧
    (applyReset s).run = .running ∧ (applyReset s).faultOp = none ∧ (applyReset s).faultAddr = none ∧
    (applyReset s).mem = s.mem

/-- `Reset()` is accepted in every run state and what it leaves depends on memory alone. The source shows only the first reset;
that a reset in any run state has the same effect is the spec's own decision (D18, 70_reset_and_hazards.md R131, following from
its reading nothing but the vector), which the model takes (log 17, DEDUCED). -/
def Obligations.ResetForgetsAllButMemory : Prop :=
  ∀ s t : State, s.mem = t.mem → command .reset s = .next (applyReset s) ∧ applyReset s = applyReset t

/-- The model's `State.reset` is `Reset()` applied to memory with nothing listed; that memory is the model's choice
(log 1, log 2). -/
def Obligations.ResetStateIsResetOfUnlistedMemory : Prop :=
  ∀ s : State, s.mem = [] → State.reset = applyReset s

/-- 20_memory.md R52: a host write is accepted in every run state, is seen at once, and changes nothing but its cell. -/
def Obligations.HostWriteSeenAtOnce : Prop :=
  ∀ (s : State) (a : Word) (v : Byte), s.mem.wf = true →
    ∃ t, command (.write a v) s = .next t ∧ t.mem.read a = v ∧ (∀ b : Word, b ≠ a → t.mem.read b = s.mem.read b) ∧
      t = { s with mem := t.mem }

/-- 10_state.md R16, 60_exceptions.md R125: where no step is enabled, no command but `Reset()` changes anything but memory;
and no command enters `UNINIT`. -/
def Obligations.OnlyResetLeavesAStoppedState : Prop :=
  ∀ (c : Command) (s t : State), command c s = .next t →
    (s.run ≠ .running → c ≠ .reset → t = { s with mem := t.mem }) ∧
    (t.run = .uninit → s.run = .uninit)

/-- 10_state.md R24, 40_step_cycle.md R74: once a run has left `RUNNING` its state stays as it is. -/
def Obligations.EndOfARunStays : Prop :=
  ∀ (s : State) (k n : Nat), (runSteps k s).run ≠ .running → runSteps (k + n) s = runSteps k s

/-- 40_step_cycle.md R74, R71: a run has at most one end, good or bad. That the three predicates are defined of starts which are
states of no run too (`UNINIT`) is the model's choice (log 18). -/
def Obligations.GoodAndBadEndsExclude : Prop :=
  ∀ s : State, ¬ (EndsWell s ∧ EndsBadly s) ∧ (RunsSafely s ↔ ¬ EndsBadly s)

/-! ## Whole-machine rules and invariants -/

/-- 10_state.md R21, R10, R11, R12, R13, R15, R16, R17: which opcodes write which state. If a step changes a register, the
opcode at `PC` is one of those the rules name as its writers; `PC` moves past the instruction but for `JSR` and `RTS`. The
`PC` clause covers unknown opcodes too, and there it rests on log 5 (DEDUCED; the spec's decision D6, U8): it is the model's
choice that `PC` in `FAULTED` is observable, at the fetch address plus one. -/
def Obligations.WritersOfEachRegister : Prop :=
  ∀ s t : State, step s = .next t →
    (t.a ≠ s.a → s.mem.read s.pc ∈ [0xA9#8, 0x8A#8, 0x98#8]) ∧
    (t.x ≠ s.x → s.mem.read s.pc ∈ [0xA2#8, 0xAA#8, 0xE8#8, 0xCA#8]) ∧
    (t.y ≠ s.y → s.mem.read s.pc ∈ [0xA0#8, 0xA8#8, 0xC8#8, 0x88#8]) ∧
    (t.sp ≠ s.sp → s.mem.read s.pc ∈ [0x20#8, 0x60#8]) ∧
    (t.p ≠ s.p → s.mem.read s.pc ∈ opcodes ∧ s.mem.read s.pc ∉ [0x20#8, 0x60#8, 0x00#8]) ∧
    (t.mem ≠ s.mem → s.mem.read s.pc = 0x20#8) ∧
    (t.run ≠ s.run → s.mem.read s.pc = 0x00#8 ∨ s.mem.read s.pc ∉ opcodes) ∧
    (t.faultOp ≠ s.faultOp ∨ t.faultAddr ≠ s.faultAddr → s.mem.read s.pc ∉ opcodes) ∧
    (s.mem.read s.pc ∉ [0x20#8, 0x60#8] →
      t.pc = s.pc + (if s.mem.read s.pc ∈ [0xA9#8, 0xA2#8, 0xA0#8] then 2 else 1))

/-- 10_state.md R14: no step, whether it runs an instruction or faults, changes the six inert bits of `P`; `Reset()` writes
them to those of 0x24. -/
def Obligations.InertStatusBitsNeverChange : Prop :=
  ∀ i : Nat, i ≠ 1 → i ≠ 7 →
    (∀ s t : State, step s = .next t → t.p.getLsbD i = s.p.getLsbD i) ∧
    (∀ s : State, (applyReset s).p.getLsbD i = (0x24#8).getLsbD i)

/-- 10_state.md R15: a step changes memory only if its opcode is `JSR`'s, and only in the stack page. -/
def Obligations.OnlyCallsWriteMemoryInStackPage : Prop :=
  ∀ s t : State, s.mem.wf = true → step s = .next t → ∀ b : Word, t.mem.read b ≠ s.mem.read b →
    s.mem.read s.pc = 0x20#8 ∧ InStackPage b

/-- Every step keeps the invariant: memory in canonical form, and the fault latches hold a report of an unknown opcode
exactly while `RUN = FAULTED` (10_state.md R17). -/
def Obligations.StepKeepsInvariant : Prop :=
  ∀ s t : State, Inv s → step s = .next t → Inv t

/-- `Reset()` and host writes keep the invariant too. -/
def Obligations.HostCommandsKeepInvariant : Prop :=
  ∀ (c : Command) (s t : State), Inv s → command c s = .next t → Inv t

/-- The invariant holds at the reset state, after `Reset()` on any canonical memory, and at power-on with any canonical
memory. -/
def Obligations.InvariantHoldsAtReset : Prop :=
  Inv State.reset ∧ ∀ s : State, s.mem.wf = true → Inv (applyReset s) ∧ (s.PoweredOn → Inv s)

/-- 10_state.md R22 (1) and (2): every step keeps `SP` odd, the inert bits of `P` as reset left them, and not both flags
set. -/
def Obligations.StepKeepsReachableRegisters : Prop :=
  ∀ s t : State, ReachableRegs s → step s = .next t → ReachableRegs t

/-- 10_state.md R22: in every state reached from `Reset()` by steps, on any memory: `SP` is odd, `P` is 0x24, 0x26 or 0xA4,
and every byte outside the stack page is what it was before the run. -/
def Obligations.ReachableStates : Prop :=
  ∀ (s : State) (k : Nat), s.mem.wf = true →
    (runSteps k (applyReset s)).sp.toNat % 2 = 1 ∧
    (runSteps k (applyReset s)).p &&& 0x7D#8 = 0x24#8 ∧
    (runSteps k (applyReset s)).p ∈ [0x24#8, 0x26#8, 0xA4#8] ∧
    ∀ b : Word, ¬ InStackPage b → (runSteps k (applyReset s)).mem.read b = s.mem.read b

/-! ## Bus accesses -/

/-- 20_memory.md R47: a step makes one to five byte accesses, the first of them the opcode fetch. -/
def Obligations.OneToFiveBusAccesses : Prop :=
  ∀ s : State, s.run = .running →
    (busAccesses s).head? = some (.read s.pc) ∧ 1 ≤ (busAccesses s).length ∧ (busAccesses s).length ≤ 5

/-- 20_memory.md R53, R34: the memory after a step is the memory before it with the writes of the step's bus accesses made
in order. -/
def Obligations.BusWritesAreTheStores : Prop :=
  ∀ s t : State, step s = .next t → t.mem = replayWrites (busAccesses s) s.mem

/-- 20_memory.md R53, R20: a step depends on no byte of memory but those its bus accesses read: on another memory that agrees
at those addresses it makes the same accesses and leaves the same registers, run state and latches. -/
def Obligations.StepReadsOnlyItsBusReads : Prop :=
  ∀ (s t : State) (m : Memory), (∀ a : Word, .read a ∈ busAccesses s → m.read a = s.mem.read a) →
    step s = .next t →
    busAccesses (s.setMem m) = busAccesses s ∧
    ∃ u, step (s.setMem m) = .next u ∧ u = t.setMem u.mem
end

