-- ==== Sys2Proof/Laws/Bytes.lean ====
section
/-! SUPPORT. Taking a word apart and putting it together (00_scope.md R6). -/

namespace Sys2Proof.Machine

@[simp] theorem lowByte_joinBytes (h l : Byte) : lowByte (joinBytes h l) = l := by
  ext i hi
  simp [lowByte, joinBytes]

@[simp] theorem highByte_joinBytes (h l : Byte) : highByte (joinBytes h l) = h := by
  ext i hi
  simp [highByte, joinBytes, hi, show 8 + i < 16 by omega, show i < 16 by omega]

@[simp] theorem joinBytes_high_low (w : Word) : joinBytes (highByte w) (lowByte w) = w := by
  ext i hi
  by_cases h : i < 8
  · simp [highByte, lowByte, joinBytes, h, BitVec.getLsbD_eq_getElem hi]
  · simp [highByte, lowByte, joinBytes, h, show 8 + (i - 8) = i by omega, BitVec.getLsbD_eq_getElem hi, show i - 8 < 8 by omega]

/-- `{h, l}` is `h * 256 + l` (R6). -/
theorem joinBytes_toNat (h l : Byte) : (joinBytes h l).toNat = h.toNat * 256 + l.toNat := by
  have hl : l.toNat < 2 ^ 8 := l.isLt
  have hh : h.toNat < 2 ^ 8 := h.isLt
  simp only [joinBytes, BitVec.toNat_or, BitVec.toNat_shiftLeft, BitVec.toNat_setWidth]
  rw [Nat.mod_eq_of_lt (by omega : l.toNat < 2 ^ 16), Nat.mod_eq_of_lt (by omega : h.toNat < 2 ^ 16), Nat.shiftLeft_eq,
    Nat.mod_eq_of_lt (by omega : h.toNat * 2 ^ 8 < 2 ^ 16), Nat.or_comm, Nat.mul_comm,
    ← Nat.two_pow_add_eq_or_of_lt hl]
  omega

theorem joinBytes_inj (h l h' l' : Byte) : joinBytes h l = joinBytes h' l' ↔ h = h' ∧ l = l' := by
  constructor
  · intro e
    exact ⟨by simpa using congrArg highByte e, by simpa using congrArg lowByte e⟩
  · rintro ⟨rfl, rfl⟩
    rfl

end Sys2Proof.Machine
end

