-- ==== Sys2Proof/Laws/Decode.lean ====
section
/-! SUPPORT. The opcode table read in both directions (30_encoding.md R58, R64) and what the decoder does with a known row. -/

namespace Sys2Proof

@[simp] theorem Mnemonic.ofOpcode_opcode (m : Mnemonic) : Mnemonic.ofOpcode m.opcode = some m := by
  cases m <;> rfl

/-- The dispatch ROM names a row only for that row's own opcode byte. -/
theorem Mnemonic.opcode_of_ofOpcode {op : Byte} {m : Mnemonic} (h : Mnemonic.ofOpcode op = some m) :
    op = m.opcode := by
  unfold Mnemonic.ofOpcode at h
  split at h <;> first
    | (cases h; apply BitVec.eq_of_toNat_eq; assumption)
    | cases h

theorem decode_cons_some {op : Byte} {m : Mnemonic} (h : Mnemonic.ofOpcode op = some m) (rest : List Byte) :
    decode (op :: rest) = decodeOperand m rest := by
  simp [decode, h]

theorem decode_cons_none {op : Byte} (h : Mnemonic.ofOpcode op = none) (rest : List Byte) :
    decode (op :: rest) = .error (.illegalOpcode op) := by
  simp [decode, h]

/-- A decoded instruction belongs to the row its opcode byte names. -/
theorem decodeOperand_mnemonic {m : Mnemonic} {rest r : List Byte} {i : Instr}
    (h : decodeOperand m rest = .ok (i, r)) : i.mnemonic = m := by
  cases m <;> simp only [decodeOperand] at h <;> first
    | (cases h; rfl)
    | (unfold decodeImm at h; split at h <;> cases h; rfl)
    | (unfold decodeAbs at h; split at h <;> cases h; rfl)

end Sys2Proof
end

