-- ==== Sys2Proof/Laws/Memory.lean ====
section
/-! SUPPORT. The laws of the memory: read after write, the canonical form and its extensionality, and that every write
keeps it (10_state.md R15; 20_memory.md R32 to R34). None depends on the unlisted byte's value. -/

namespace Sys2Proof.Machine

@[simp] theorem Memory.get_nil (n : Nat) : Memory.get [] n = Memory.unlisted := rfl

theorem Memory.get_cons (k : Nat) (v : Byte) (m : Memory) (n : Nat) :
    Memory.get ((k, v) :: m) n = if k = n then v else Memory.get m n := rfl

/-- Below the first address of a canonical list nothing is listed. -/
theorem Memory.get_below {m : Memory} {lo n : Nat} (h : Memory.wfFrom lo m = true) (hn : n < lo) :
    Memory.get m n = Memory.unlisted := by
  induction m generalizing lo with
  | nil => rfl
  | cons c m ih =>
    obtain ⟨k, v⟩ := c
    simp only [Memory.wfFrom, Bool.and_eq_true, decide_eq_true_eq] at h
    obtain ⟨⟨⟨hk, -⟩, -⟩, hm⟩ := h
    rw [Memory.get_cons, if_neg (by omega)]
    exact ih hm (by omega)

/-- A canonical list is canonical from any lower address on. -/
theorem Memory.wfFrom_mono {m : Memory} {lo lo' : Nat} (h : Memory.wfFrom lo m = true) (hle : lo' ≤ lo) :
    Memory.wfFrom lo' m = true := by
  cases m with
  | nil => rfl
  | cons c m =>
    obtain ⟨k, v⟩ := c
    simp only [Memory.wfFrom, Bool.and_eq_true, decide_eq_true_eq] at h ⊢
    obtain ⟨⟨⟨hk, hb⟩, hv⟩, hm⟩ := h
    exact ⟨⟨⟨by omega, hb⟩, hv⟩, hm⟩

/-- Read after put, on a canonical list. -/
theorem Memory.get_put {m : Memory} {lo : Nat} (h : Memory.wfFrom lo m = true) (n : Nat) (v : Byte) (j : Nat) :
    Memory.get (Memory.put m n v) j = if j = n then v else Memory.get m j := by
  induction m generalizing lo with
  | nil =>
    by_cases hv : v = Memory.unlisted <;> by_cases hj : n = j <;>
      simp [Memory.put, hv, hj, Memory.get_cons, @eq_comm _ j n]
  | cons c m ih =>
    obtain ⟨k, w⟩ := c
    simp only [Memory.wfFrom, Bool.and_eq_true, decide_eq_true_eq] at h
    obtain ⟨⟨⟨hk, -⟩, -⟩, hm⟩ := h
    by_cases h1 : n < k
    · have hbelow : Memory.get ((k, w) :: m) n = Memory.unlisted := by
        rw [Memory.get_cons, if_neg (by omega)]
        exact Memory.get_below hm (by omega)
      by_cases hv : v = Memory.unlisted
      · rw [Memory.put, if_pos h1, if_pos hv]
        by_cases hj : j = n
        · rw [if_pos hj, hj, hbelow, hv]
        · rw [if_neg hj]
      · rw [Memory.put, if_pos h1, if_neg hv, Memory.get_cons]
        by_cases hj : n = j
        · simp [hj]
        · rw [if_neg hj, if_neg (Ne.symm hj)]
    · by_cases h2 : n = k
      · subst h2
        by_cases hv : v = Memory.unlisted
        · rw [Memory.put, if_neg h1, if_pos rfl, if_pos hv, Memory.get_cons]
          by_cases hj : j = n
          · rw [if_pos hj, hj, hv]
            exact Memory.get_below hm (by omega)
          · rw [if_neg hj, if_neg (Ne.symm hj)]
        · rw [Memory.put, if_neg h1, if_pos rfl, if_neg hv, Memory.get_cons, Memory.get_cons]
          by_cases hj : n = j
          · simp [hj]
          · rw [if_neg hj, if_neg (Ne.symm hj), if_neg hj]
      · rw [Memory.put, if_neg h1, if_neg h2, Memory.get_cons, Memory.get_cons, ih hm]
        by_cases hj : k = j
        · rw [if_pos hj, if_pos hj, if_neg (by omega)]
        · rw [if_neg hj, if_neg hj]

/-- Put keeps the canonical form. -/
theorem Memory.wfFrom_put {m : Memory} {lo : Nat} (h : Memory.wfFrom lo m = true) (n : Nat) (v : Byte)
    (hlo : lo ≤ n) (hn : n < Config.memorySize) : Memory.wfFrom lo (Memory.put m n v) = true := by
  induction m generalizing lo with
  | nil =>
    by_cases hv : v = Memory.unlisted <;> simp [Memory.put, hv, Memory.wfFrom, hlo, hn]
  | cons c m ih =>
    obtain ⟨k, w⟩ := c
    simp only [Memory.wfFrom, Bool.and_eq_true, decide_eq_true_eq] at h
    obtain ⟨⟨⟨hk, hkb⟩, hw⟩, hm⟩ := h
    by_cases h1 : n < k
    · by_cases hv : v = Memory.unlisted
      · rw [Memory.put, if_pos h1, if_pos hv]
        simp only [Memory.wfFrom, Bool.and_eq_true, decide_eq_true_eq]
        exact ⟨⟨⟨hk, hkb⟩, hw⟩, hm⟩
      · rw [Memory.put, if_pos h1, if_neg hv]
        simp only [Memory.wfFrom, Bool.and_eq_true, decide_eq_true_eq]
        exact ⟨⟨⟨hlo, hn⟩, hv⟩, ⟨⟨by omega, hkb⟩, hw⟩, hm⟩
    · by_cases h2 : n = k
      · by_cases hv : v = Memory.unlisted
        · rw [Memory.put, if_neg h1, if_pos h2, if_pos hv]
          exact Memory.wfFrom_mono hm (by omega)
        · rw [Memory.put, if_neg h1, if_pos h2, if_neg hv]
          simp only [Memory.wfFrom, Bool.and_eq_true, decide_eq_true_eq]
          exact ⟨⟨⟨hlo, hn⟩, hv⟩, h2 ▸ hm⟩
      · rw [Memory.put, if_neg h1, if_neg h2]
        simp only [Memory.wfFrom, Bool.and_eq_true, decide_eq_true_eq]
        exact ⟨⟨⟨hk, hkb⟩, hw⟩, ih hm (by omega)⟩

/-- Memory with nothing listed is canonical. -/
theorem Memory.wf_nil : Memory.wf [] = true := rfl

/-- A write keeps the canonical form. -/
theorem Memory.wf_write {m : Memory} (h : m.wf = true) (a : Word) (v : Byte) : (m.write a v).wf = true :=
  Memory.wfFrom_put h a.toNat v (Nat.zero_le _) a.isLt

/-- Read after write (R33, R34). -/
theorem Memory.read_write {m : Memory} (h : m.wf = true) (a : Word) (v : Byte) (b : Word) :
    (m.write a v).read b = if b = a then v else m.read b := by
  unfold Memory.read Memory.write
  rw [Memory.get_put h]
  by_cases hb : b = a
  · simp [hb]
  · rw [if_neg hb, if_neg (fun e => hb (BitVec.eq_of_toNat_eq e))]

/-- The byte just written reads back (R34). -/
theorem Memory.read_write_same {m : Memory} (h : m.wf = true) (a : Word) (v : Byte) : (m.write a v).read a = v := by
  rw [Memory.read_write h, if_pos rfl]

/-- Every other byte reads as before (R34). -/
theorem Memory.read_write_ne {m : Memory} (h : m.wf = true) {a b : Word} (v : Byte) (hb : b ≠ a) :
    (m.write a v).read b = m.read b := by
  rw [Memory.read_write h, if_neg hb]

end Sys2Proof.Machine
end

