-- ==== Sys2Proof/Laws/State.lean ====
section
/-! SUPPORT. What each update of a state does to each field: one lemma per field per update, and register reads after
register writes. No later proof unfolds a record update. -/

namespace Sys2Proof.Machine
@[simp] theorem State.setPc_a (s : State) (w : Word) : (s.setPc w).a = s.a := rfl
@[simp] theorem State.setPc_x (s : State) (w : Word) : (s.setPc w).x = s.x := rfl
@[simp] theorem State.setPc_y (s : State) (w : Word) : (s.setPc w).y = s.y := rfl
@[simp] theorem State.setPc_pc (s : State) (w : Word) : (s.setPc w).pc = w := rfl
@[simp] theorem State.setPc_sp (s : State) (w : Word) : (s.setPc w).sp = s.sp := rfl
@[simp] theorem State.setPc_p (s : State) (w : Word) : (s.setPc w).p = s.p := rfl
@[simp] theorem State.setPc_mem (s : State) (w : Word) : (s.setPc w).mem = s.mem := rfl
@[simp] theorem State.setPc_run (s : State) (w : Word) : (s.setPc w).run = s.run := rfl
@[simp] theorem State.setPc_faultOp (s : State) (w : Word) : (s.setPc w).faultOp = s.faultOp := rfl
@[simp] theorem State.setPc_faultAddr (s : State) (w : Word) : (s.setPc w).faultAddr = s.faultAddr := rfl

@[simp] theorem State.setSp_a (s : State) (v : Byte) : (s.setSp v).a = s.a := rfl
@[simp] theorem State.setSp_x (s : State) (v : Byte) : (s.setSp v).x = s.x := rfl
@[simp] theorem State.setSp_y (s : State) (v : Byte) : (s.setSp v).y = s.y := rfl
@[simp] theorem State.setSp_pc (s : State) (v : Byte) : (s.setSp v).pc = s.pc := rfl
@[simp] theorem State.setSp_sp (s : State) (v : Byte) : (s.setSp v).sp = v := rfl
@[simp] theorem State.setSp_p (s : State) (v : Byte) : (s.setSp v).p = s.p := rfl
@[simp] theorem State.setSp_mem (s : State) (v : Byte) : (s.setSp v).mem = s.mem := rfl
@[simp] theorem State.setSp_run (s : State) (v : Byte) : (s.setSp v).run = s.run := rfl
@[simp] theorem State.setSp_faultOp (s : State) (v : Byte) : (s.setSp v).faultOp = s.faultOp := rfl
@[simp] theorem State.setSp_faultAddr (s : State) (v : Byte) : (s.setSp v).faultAddr = s.faultAddr := rfl

@[simp] theorem State.setP_a (s : State) (v : Byte) : (s.setP v).a = s.a := rfl
@[simp] theorem State.setP_x (s : State) (v : Byte) : (s.setP v).x = s.x := rfl
@[simp] theorem State.setP_y (s : State) (v : Byte) : (s.setP v).y = s.y := rfl
@[simp] theorem State.setP_pc (s : State) (v : Byte) : (s.setP v).pc = s.pc := rfl
@[simp] theorem State.setP_sp (s : State) (v : Byte) : (s.setP v).sp = s.sp := rfl
@[simp] theorem State.setP_p (s : State) (v : Byte) : (s.setP v).p = v := rfl
@[simp] theorem State.setP_mem (s : State) (v : Byte) : (s.setP v).mem = s.mem := rfl
@[simp] theorem State.setP_run (s : State) (v : Byte) : (s.setP v).run = s.run := rfl
@[simp] theorem State.setP_faultOp (s : State) (v : Byte) : (s.setP v).faultOp = s.faultOp := rfl
@[simp] theorem State.setP_faultAddr (s : State) (v : Byte) : (s.setP v).faultAddr = s.faultAddr := rfl

@[simp] theorem State.setMem_a (s : State) (m : Memory) : (s.setMem m).a = s.a := rfl
@[simp] theorem State.setMem_x (s : State) (m : Memory) : (s.setMem m).x = s.x := rfl
@[simp] theorem State.setMem_y (s : State) (m : Memory) : (s.setMem m).y = s.y := rfl
@[simp] theorem State.setMem_pc (s : State) (m : Memory) : (s.setMem m).pc = s.pc := rfl
@[simp] theorem State.setMem_sp (s : State) (m : Memory) : (s.setMem m).sp = s.sp := rfl
@[simp] theorem State.setMem_p (s : State) (m : Memory) : (s.setMem m).p = s.p := rfl
@[simp] theorem State.setMem_mem (s : State) (m : Memory) : (s.setMem m).mem = m := rfl
@[simp] theorem State.setMem_run (s : State) (m : Memory) : (s.setMem m).run = s.run := rfl
@[simp] theorem State.setMem_faultOp (s : State) (m : Memory) : (s.setMem m).faultOp = s.faultOp := rfl
@[simp] theorem State.setMem_faultAddr (s : State) (m : Memory) : (s.setMem m).faultAddr = s.faultAddr := rfl

@[simp] theorem State.setRun_a (s : State) (r : RunState) : (s.setRun r).a = s.a := rfl
@[simp] theorem State.setRun_x (s : State) (r : RunState) : (s.setRun r).x = s.x := rfl
@[simp] theorem State.setRun_y (s : State) (r : RunState) : (s.setRun r).y = s.y := rfl
@[simp] theorem State.setRun_pc (s : State) (r : RunState) : (s.setRun r).pc = s.pc := rfl
@[simp] theorem State.setRun_sp (s : State) (r : RunState) : (s.setRun r).sp = s.sp := rfl
@[simp] theorem State.setRun_p (s : State) (r : RunState) : (s.setRun r).p = s.p := rfl
@[simp] theorem State.setRun_mem (s : State) (r : RunState) : (s.setRun r).mem = s.mem := rfl
@[simp] theorem State.setRun_run (s : State) (r : RunState) : (s.setRun r).run = r := rfl
@[simp] theorem State.setRun_faultOp (s : State) (r : RunState) : (s.setRun r).faultOp = s.faultOp := rfl
@[simp] theorem State.setRun_faultAddr (s : State) (r : RunState) : (s.setRun r).faultAddr = s.faultAddr := rfl

@[simp] theorem State.setLatches_a (s : State) (op : Option Byte) (ad : Option Word) : (s.setLatches op ad).a = s.a := rfl
@[simp] theorem State.setLatches_x (s : State) (op : Option Byte) (ad : Option Word) : (s.setLatches op ad).x = s.x := rfl
@[simp] theorem State.setLatches_y (s : State) (op : Option Byte) (ad : Option Word) : (s.setLatches op ad).y = s.y := rfl
@[simp] theorem State.setLatches_pc (s : State) (op : Option Byte) (ad : Option Word) : (s.setLatches op ad).pc = s.pc := rfl
@[simp] theorem State.setLatches_sp (s : State) (op : Option Byte) (ad : Option Word) : (s.setLatches op ad).sp = s.sp := rfl
@[simp] theorem State.setLatches_p (s : State) (op : Option Byte) (ad : Option Word) : (s.setLatches op ad).p = s.p := rfl
@[simp] theorem State.setLatches_mem (s : State) (op : Option Byte) (ad : Option Word) : (s.setLatches op ad).mem = s.mem := rfl
@[simp] theorem State.setLatches_run (s : State) (op : Option Byte) (ad : Option Word) : (s.setLatches op ad).run = s.run := rfl
@[simp] theorem State.setLatches_faultOp (s : State) (op : Option Byte) (ad : Option Word) : (s.setLatches op ad).faultOp = op := rfl
@[simp] theorem State.setLatches_faultAddr (s : State) (op : Option Byte) (ad : Option Word) : (s.setLatches op ad).faultAddr = ad := rfl

@[simp] theorem State.writeReg_pc (s : State) (r : Reg) (v : Byte) : (s.writeReg r v).pc = s.pc := by
  cases r <;> rfl
@[simp] theorem State.writeReg_sp (s : State) (r : Reg) (v : Byte) : (s.writeReg r v).sp = s.sp := by
  cases r <;> rfl
@[simp] theorem State.writeReg_p (s : State) (r : Reg) (v : Byte) : (s.writeReg r v).p = s.p := by
  cases r <;> rfl
@[simp] theorem State.writeReg_mem (s : State) (r : Reg) (v : Byte) : (s.writeReg r v).mem = s.mem := by
  cases r <;> rfl
@[simp] theorem State.writeReg_run (s : State) (r : Reg) (v : Byte) : (s.writeReg r v).run = s.run := by
  cases r <;> rfl
@[simp] theorem State.writeReg_faultOp (s : State) (r : Reg) (v : Byte) : (s.writeReg r v).faultOp = s.faultOp := by
  cases r <;> rfl
@[simp] theorem State.writeReg_faultAddr (s : State) (r : Reg) (v : Byte) : (s.writeReg r v).faultAddr = s.faultAddr := by
  cases r <;> rfl

theorem State.readReg_writeReg (s : State) (r q : Reg) (v : Byte) :
    (s.writeReg r v).readReg q = if q = r then v else s.readReg q := by
  cases r <;> cases q <;> rfl

@[simp] theorem State.readReg_A (s : State) : s.readReg .A = s.a := rfl
@[simp] theorem State.readReg_X (s : State) : s.readReg .X = s.x := rfl
@[simp] theorem State.readReg_Y (s : State) : s.readReg .Y = s.y := rfl
@[simp] theorem State.setPc_readReg (s : State) (w : Word) (q : Reg) : (s.setPc w).readReg q = s.readReg q := by
  cases q <;> rfl
@[simp] theorem State.setSp_readReg (s : State) (v : Byte) (q : Reg) : (s.setSp v).readReg q = s.readReg q := by
  cases q <;> rfl
@[simp] theorem State.setP_readReg (s : State) (v : Byte) (q : Reg) : (s.setP v).readReg q = s.readReg q := by
  cases q <;> rfl
@[simp] theorem State.setMem_readReg (s : State) (m : Memory) (q : Reg) : (s.setMem m).readReg q = s.readReg q := by
  cases q <;> rfl
@[simp] theorem State.setRun_readReg (s : State) (r : RunState) (q : Reg) : (s.setRun r).readReg q = s.readReg q := by
  cases q <;> rfl
@[simp] theorem State.setLatches_readReg (s : State) (op : Option Byte) (ad : Option Word) (q : Reg) : (s.setLatches op ad).readReg q = s.readReg q := by
  cases q <;> rfl
@[simp] theorem State.writeResult_pc (s : State) (r : Reg) (v : Byte) : (s.writeResult r v).pc = s.pc := by
  cases r <;> rfl
@[simp] theorem State.writeResult_sp (s : State) (r : Reg) (v : Byte) : (s.writeResult r v).sp = s.sp := by
  cases r <;> rfl
@[simp] theorem State.writeResult_p (s : State) (r : Reg) (v : Byte) : (s.writeResult r v).p = setZN v s.p := by
  cases r <;> rfl
@[simp] theorem State.writeResult_mem (s : State) (r : Reg) (v : Byte) : (s.writeResult r v).mem = s.mem := by
  cases r <;> rfl
@[simp] theorem State.writeResult_run (s : State) (r : Reg) (v : Byte) : (s.writeResult r v).run = s.run := by
  cases r <;> rfl
@[simp] theorem State.writeResult_faultOp (s : State) (r : Reg) (v : Byte) : (s.writeResult r v).faultOp = s.faultOp := by
  cases r <;> rfl
@[simp] theorem State.writeResult_faultAddr (s : State) (r : Reg) (v : Byte) : (s.writeResult r v).faultAddr = s.faultAddr := by
  cases r <;> rfl

theorem State.writeResult_readReg (s : State) (r q : Reg) (v : Byte) :
    (s.writeResult r v).readReg q = if q = r then v else s.readReg q := by
  cases r <;> cases q <;> rfl

end Sys2Proof.Machine
end

