-- ==== Sys2Proof/Laws/Ops.lean ====
section
/-! SUPPORT. Everything the shared operations can do, once each: flag computation, fetch, stack, exception, halt, reset. -/

namespace Sys2Proof.Machine

/-- `SetZN` bit by bit (R18). -/
theorem setZN_getLsbD (v p : Byte) (i : Nat) :
    (setZN v p).getLsbD i =
      if i = zeroBit then decide (v = 0) else if i = negativeBit then v.getLsbD negativeBit else p.getLsbD i := by
  by_cases hi : i < 8
  · have hcases : i = 0 ∨ i = 1 ∨ i = 2 ∨ i = 3 ∨ i = 4 ∨ i = 5 ∨ i = 6 ∨ i = 7 := by omega
    by_cases hv : v = 0#8 <;> rcases hcases with rfl | rfl | rfl | rfl | rfl | rfl | rfl | rfl <;>
      simp [setZN, zeroBit, negativeBit, hv]
  · rw [BitVec.getLsbD_of_ge _ i (by omega), BitVec.getLsbD_of_ge p i (by omega)]
    simp [zeroBit, negativeBit, show i ≠ 1 by omega, show i ≠ 7 by omega]

@[simp] theorem fetchByte_fst (s : State) : (fetchByte s).1 = s.mem.read s.pc := rfl
@[simp] theorem fetchByte_snd (s : State) : (fetchByte s).2 = s.setPc (s.pc + 1) := rfl

@[simp] theorem fetchWord_fst (s : State) :
    (fetchWord s).1 = joinBytes (s.mem.read (s.pc + 1)) (s.mem.read s.pc) := rfl

@[simp] theorem setPc_setPc (s : State) (v w : Word) : (s.setPc v).setPc w = s.setPc w := rfl

@[simp] theorem fetchWord_snd (s : State) : (fetchWord s).2 = s.setPc (s.pc + 2) := by
  simp [fetchWord, BitVec.add_assoc]

/-- The stack address is the stack page's base plus `SP` (R39). -/
theorem stackAddrOf_toNat (sp : Byte) : (stackAddrOf sp).toNat = 256 + sp.toNat := by
  have h : sp.toNat < 2 ^ 8 := sp.isLt
  simp only [stackAddrOf, stackBase, BitVec.toNat_or, BitVec.toNat_setWidth, BitVec.toNat_ofNat]
  rw [Nat.mod_eq_of_lt (by omega : sp.toNat < 2 ^ 16), show 256 % 2 ^ 16 = 2 ^ 8 * 1 by decide,
    ← Nat.two_pow_add_eq_or_of_lt h]

theorem stackAddrOf_inj {sp sp' : Byte} : stackAddrOf sp = stackAddrOf sp' ↔ sp = sp' := by
  constructor
  · intro e
    have h := congrArg BitVec.toNat e
    rw [stackAddrOf_toNat, stackAddrOf_toNat] at h
    exact BitVec.eq_of_toNat_eq (by omega)
  · rintro rfl
    rfl

/-- `PushWord` leaves every register but `SP` alone (R42). -/
theorem pushWord_eq (w : Word) (s : State) :
    pushWord w s =
      (s.setMem ((s.mem.write (stackAddrOf s.sp) (highByte w)).write (stackAddrOf (s.sp - 1)) (lowByte w))).setSp
        (s.sp - 2) := by
  have h : s.sp - 1#8 - 1#8 = s.sp - 2#8 := by bv_omega
  simp [pushWord, pushByte, stackAddr, State.setMem, State.setSp, h]

/-- `PopWord` (R43). -/
theorem popWord_eq (s : State) :
    popWord s =
      (joinBytes (s.mem.read (stackAddrOf (s.sp + 2))) (s.mem.read (stackAddrOf (s.sp + 1))), s.setSp (s.sp + 2)) := by
  have h : s.sp + 1#8 + 1#8 = s.sp + 2#8 := by bv_omega
  simp [popWord, popByte, stackAddr, State.setSp, h]

/-- The two cells of a pushed word are distinct, for every `SP` (R42, R44). -/
theorem stackAddrOf_pred_ne (sp : Byte) : stackAddrOf sp ≠ stackAddrOf (sp - 1) := by
  rw [Ne, stackAddrOf_inj]
  bv_omega

@[simp] theorem pushWord_sp (w : Word) (s : State) : (pushWord w s).sp = s.sp - 2 := by rw [pushWord_eq]; rfl
@[simp] theorem pushWord_p (w : Word) (s : State) : (pushWord w s).p = s.p := by rw [pushWord_eq]; rfl
@[simp] theorem pushWord_pc (w : Word) (s : State) : (pushWord w s).pc = s.pc := by rw [pushWord_eq]; rfl
@[simp] theorem pushWord_run (w : Word) (s : State) : (pushWord w s).run = s.run := by rw [pushWord_eq]; rfl
@[simp] theorem pushWord_faultOp (w : Word) (s : State) : (pushWord w s).faultOp = s.faultOp := by rw [pushWord_eq]; rfl
@[simp] theorem pushWord_faultAddr (w : Word) (s : State) : (pushWord w s).faultAddr = s.faultAddr := by
  rw [pushWord_eq]; rfl
@[simp] theorem pushWord_readReg (w : Word) (s : State) (q : Reg) : (pushWord w s).readReg q = s.readReg q := by
  rw [pushWord_eq]; simp

/-- The high byte lands at the stack address of `SP` (R42). -/
theorem pushWord_read_high {s : State} (h : s.mem.wf = true) (w : Word) :
    (pushWord w s).mem.read (stackAddrOf s.sp) = highByte w := by
  rw [pushWord_eq]
  exact (Memory.read_write_ne (Memory.wf_write h _ _) _ (stackAddrOf_pred_ne s.sp)).trans
    (Memory.read_write_same h _ _)

/-- The low byte lands at the stack address of `SP - 1` (R42). -/
theorem pushWord_read_low {s : State} (h : s.mem.wf = true) (w : Word) :
    (pushWord w s).mem.read (stackAddrOf (s.sp - 1)) = lowByte w := by
  rw [pushWord_eq]
  exact Memory.read_write_same (Memory.wf_write h _ _) _ _

/-- Every other byte reads as before (R42). -/
theorem pushWord_read_other {s : State} (h : s.mem.wf = true) (w : Word) {b : Word} (h1 : b ≠ stackAddrOf s.sp)
    (h2 : b ≠ stackAddrOf (s.sp - 1)) : (pushWord w s).mem.read b = s.mem.read b := by
  rw [pushWord_eq]
  exact (Memory.read_write_ne (Memory.wf_write h _ _) _ h2).trans (Memory.read_write_ne h _ h1)

theorem pushWord_wf {s : State} (h : s.mem.wf = true) (w : Word) : (pushWord w s).mem.wf = true := by
  rw [pushWord_eq]
  exact Memory.wf_write (Memory.wf_write h _ _) _ _

/-- The opcode byte and the operand bytes of a known row are consumed, nothing else (R57, R70). -/
theorem fetchInstrBytes_some {s : State} {m : Mnemonic} (h : Mnemonic.ofOpcode (s.mem.read s.pc) = some m) :
    fetchInstrBytes s =
      (match m.format with
        | .imp => [s.mem.read s.pc]
        | .imm => [s.mem.read s.pc, s.mem.read (s.pc + 1)]
        | .abs => [s.mem.read s.pc, s.mem.read (s.pc + 1), s.mem.read (s.pc + 2)],
       s.setPc (s.pc + BitVec.ofNat 16 m.format.length)) := by
  have h2 : s.pc + 1#16 + 1#16 = s.pc + 2#16 := by bv_omega
  have h3 : s.pc + 1#16 + 2#16 = s.pc + 3#16 := by bv_omega
  cases hf : m.format <;>
    simp [fetchInstrBytes, fetchOperandOf, fetchOperand, h, hf, Format.length, h2, h3]

/-- An unknown opcode has length one (R57). -/
theorem fetchInstr_none {s : State} (h : Mnemonic.ofOpcode (s.mem.read s.pc) = none) :
    fetchInstr s = (none, s.setPc (s.pc + 1)) := by
  simp [fetchInstr, fetchInstrBytes, fetchOperandOf, h, decode_cons_none h]

end Sys2Proof.Machine
end

