-- ==== Sys2Proof/Laws/PerInstr.lean ====
section
/-! SUPPORT. Statements about every instruction as syntax, one lemma per constructor. -/

namespace Sys2Proof.Laws.EncodeShape

/-- The encoding of an instruction has the length its opcode decides, one to three bytes, and begins with the opcode of its
row (30_encoding.md R55, R57); the instruction is well-formed. -/
def Statement (i : Instr) : Prop :=
  (encode i).length = i.length ∧ 1 ≤ i.length ∧ i.length ≤ Config.longestInstr ∧
    (encode i).head? = some i.mnemonic.opcode ∧ i.wellFormed = true

theorem lda (imm : Byte) : Statement (.lda imm) :=
  ⟨rfl, (by decide : 1 ≤ 2), (by decide : 2 ≤ 3), rfl, decide_eq_true (p := imm.toNat < 256) imm.isLt⟩

theorem ldx (imm : Byte) : Statement (.ldx imm) :=
  ⟨rfl, (by decide : 1 ≤ 2), (by decide : 2 ≤ 3), rfl, decide_eq_true (p := imm.toNat < 256) imm.isLt⟩

theorem ldy (imm : Byte) : Statement (.ldy imm) :=
  ⟨rfl, (by decide : 1 ≤ 2), (by decide : 2 ≤ 3), rfl, decide_eq_true (p := imm.toNat < 256) imm.isLt⟩

theorem tax : Statement .tax := by unfold Statement; decide
theorem txa : Statement .txa := by unfold Statement; decide
theorem tay : Statement .tay := by unfold Statement; decide
theorem tya : Statement .tya := by unfold Statement; decide
theorem inx : Statement .inx := by unfold Statement; decide
theorem dex : Statement .dex := by unfold Statement; decide
theorem iny : Statement .iny := by unfold Statement; decide
theorem dey : Statement .dey := by unfold Statement; decide

theorem jsr (addr : Word) : Statement (.jsr addr) :=
  ⟨rfl, (by decide : 1 ≤ 3), (by decide : 3 ≤ 3), rfl, decide_eq_true (p := addr.toNat < 65536) addr.isLt⟩

theorem rts : Statement .rts := by unfold Statement; decide
theorem brk : Statement .brk := by unfold Statement; decide

end Sys2Proof.Laws.EncodeShape
end

