-- ==== Sys2Proof/Laws/Step.lean ====
section
/-! SUPPORT. What one step can do, once: the instruction it fetches, and the shape of the state each instruction leaves. -/

namespace Sys2Proof.Machine

/-- The step on a known row (R70): the instruction its bytes spell, on the state with `PC` past them. -/
theorem fetchInstr_some {s : State} {m : Mnemonic} (h : Mnemonic.ofOpcode (s.mem.read s.pc) = some m) :
    ∃ i, fetchInstr s = (some i, s.setPc (s.pc + BitVec.ofNat 16 i.length)) ∧ i.mnemonic = m ∧
      decode [s.mem.read s.pc, s.mem.read (s.pc + 1), s.mem.read (s.pc + 2)] =
        .ok (i, List.drop (i.length - 1) [s.mem.read (s.pc + 1), s.mem.read (s.pc + 2)]) := by
  simp only [fetchInstr, fetchInstrBytes_some h]
  cases m <;>
    simp [decode, h, decodeOperand, decodeImm, decodeAbs, Mnemonic.format, Instr.length, Instr.mnemonic, Instr.toAsm,
      Format.length]

theorem step_running_some {s : State} {i : Instr} {t : State} (hr : s.run = .running) (h : fetchInstr s = (some i, t)) :
    step s = exec i t := by
  simp [step, hr, h]

theorem step_running_none {s : State} (hr : s.run = .running) (h : Mnemonic.ofOpcode (s.mem.read s.pc) = none) :
    step s = .next (raiseIllegalOpcode (s.mem.read s.pc) s.pc (s.setPc (s.pc + 1))) := by
  simp [step, hr, fetchInstr_none h, illegalOpcodeStep]

/-- What the instructions do to a state, by shape: a result written to one register, a call, a return, a halt. -/
theorem exec_cases (i : Instr) (s : State) :
    (∃ r v, exec i s = .next (s.writeResult r v)) ∨
    (∃ addr, i = .jsr addr ∧ exec i s = .next ((pushWord (s.pc - 1) s).setPc addr)) ∨
    (i = .rts ∧ exec i s = .next ((popWord s).2.setPc ((popWord s).1 + 1))) ∨
    (i = .brk ∧ exec i s = .next (halt s)) := by
  cases i with
  | jsr addr => exact .inr (.inl ⟨addr, rfl, rfl⟩)
  | rts => exact .inr (.inr (.inl ⟨rfl, rfl⟩))
  | brk => exact .inr (.inr (.inr ⟨rfl, rfl⟩))
  | lda imm => exact .inl ⟨.A, imm, rfl⟩
  | ldx imm => exact .inl ⟨.X, imm, rfl⟩
  | ldy imm => exact .inl ⟨.Y, imm, rfl⟩
  | tax => exact .inl ⟨.X, s.a, rfl⟩
  | txa => exact .inl ⟨.A, s.x, rfl⟩
  | tay => exact .inl ⟨.Y, s.a, rfl⟩
  | tya => exact .inl ⟨.A, s.y, rfl⟩
  | inx => exact .inl ⟨.X, s.x + 1, rfl⟩
  | dex => exact .inl ⟨.X, s.x - 1, rfl⟩
  | iny => exact .inl ⟨.Y, s.y + 1, rfl⟩
  | dey => exact .inl ⟨.Y, s.y - 1, rfl⟩

/-- A step that answers a next state ran the decoded instruction or took the exception (R70, R72). -/
theorem step_next_cases {s t : State} (h : step s = .next t) :
    s.run = .running ∧
      ((∃ i, Mnemonic.ofOpcode (s.mem.read s.pc) = some i.mnemonic ∧
          exec i (s.setPc (s.pc + BitVec.ofNat 16 i.length)) = .next t) ∨
        (Mnemonic.ofOpcode (s.mem.read s.pc) = none ∧
          t = raiseIllegalOpcode (s.mem.read s.pc) s.pc (s.setPc (s.pc + 1)))) := by
  cases hr : s.run with
  | uninit => simp [step, hr] at h
  | halted => simp [step, hr] at h
  | faulted => simp [step, hr] at h
  | running =>
    refine ⟨rfl, ?_⟩
    cases hm : Mnemonic.ofOpcode (s.mem.read s.pc) with
    | none =>
      rw [step_running_none hr hm] at h
      exact .inr ⟨rfl, by simpa using h.symm⟩
    | some m =>
      obtain ⟨i, hf, hi, -⟩ := fetchInstr_some hm
      rw [step_running_some hr hf] at h
      exact .inl ⟨i, by rw [hi], h⟩

end Sys2Proof.Machine
end

