-- ==== Sys2Proof/Tests/Slice0.lean ====
section
/-! SUPPORT. Small tests of the model against spec/95_test_vectors.md (the vector's name is in each comment; none is from a
run of anything), the ill-formed terms of WellFormed.lean, the words of 30_encoding.md R58 written out bit by bit, and a
witness for the hypotheses of each statement. -/

namespace Sys2Proof.Tests

open Sys2Proof.Machine Sys2Proof.Claims

/-! ## Well-formedness: a term each check refuses, and one it accepts -/

theorem test_wf_operand_form_immediate : AsmLine.wellFormed ⟨.tax, .immediate 0⟩ = false := by decide
theorem test_wf_operand_form_missing : AsmLine.wellFormed ⟨.lda, .none⟩ = false := by decide
theorem test_wf_operand_form_absolute : AsmLine.wellFormed ⟨.lda, .absolute 0x10⟩ = false := by decide
theorem test_wf_immediate_too_wide : AsmLine.wellFormed ⟨.lda, .immediate 256⟩ = false := by decide
theorem test_wf_absolute_too_wide : AsmLine.wellFormed ⟨.jsr, .absolute 65536⟩ = false := by decide
theorem test_wf_accepts : AsmLine.wellFormed ⟨.jsr, .absolute 65535⟩ = true ∧ Instr.wellFormed (.lda 0xFF#8) = true := by
  decide

/-- The three examples of 30_encoding.md R62. -/
theorem test_asm_text :
    (Instr.toAsm .tax).chars = ['T', 'A', 'X'] ∧
    (Instr.toAsm (.lda 0x10#8)).chars = ['L', 'D', 'A', ' ', '#', '$', '1', '0'] ∧
    (Instr.toAsm (.jsr 0x9000#16)).chars = ['J', 'S', 'R', ' ', '$', '9', '0', '0', '0'] := by decide

theorem test_asm_refuses : AsmLine.assemble ⟨.lda, .immediate 256⟩ = none ∧ AsmLine.assemble ⟨.jsr, .immediate 1⟩ = none := by
  decide

/-! ## Decoding: every row's word, from the binary table of 30_encoding.md R58 -/

/-- What `decodeTableWord` gives for the bytes in memory order. -/
def fromBytes (bs : List Byte) : Option Instr := decodeTableWord (8 * bs.length) (tableWord bs)

theorem test_decode_lda : fromBytes [0b10101001#8, 0b00010000#8] = some (.lda 0x10#8) ∧ encode (.lda 0x10#8) = [0b10101001#8, 0b00010000#8] := by decide
theorem test_decode_ldx : fromBytes [0b10100010#8, 0b11111111#8] = some (.ldx 0xFF#8) ∧ encode (.ldx 0xFF#8) = [0b10100010#8, 0b11111111#8] := by decide
theorem test_decode_ldy : fromBytes [0b10100000#8, 0b10000000#8] = some (.ldy 0x80#8) ∧ encode (.ldy 0x80#8) = [0b10100000#8, 0b10000000#8] := by decide
theorem test_decode_tax : fromBytes [0b10101010#8] = some (.tax) ∧ encode (.tax) = [0b10101010#8] := by decide
theorem test_decode_txa : fromBytes [0b10001010#8] = some (.txa) ∧ encode (.txa) = [0b10001010#8] := by decide
theorem test_decode_tay : fromBytes [0b10101000#8] = some (.tay) ∧ encode (.tay) = [0b10101000#8] := by decide
theorem test_decode_tya : fromBytes [0b10011000#8] = some (.tya) ∧ encode (.tya) = [0b10011000#8] := by decide
theorem test_decode_inx : fromBytes [0b11101000#8] = some (.inx) ∧ encode (.inx) = [0b11101000#8] := by decide
theorem test_decode_dex : fromBytes [0b11001010#8] = some (.dex) ∧ encode (.dex) = [0b11001010#8] := by decide
theorem test_decode_iny : fromBytes [0b11001000#8] = some (.iny) ∧ encode (.iny) = [0b11001000#8] := by decide
theorem test_decode_dey : fromBytes [0b10001000#8] = some (.dey) ∧ encode (.dey) = [0b10001000#8] := by decide
theorem test_decode_jsr : fromBytes [0b00100000#8, 0b00000001#8, 0b10010000#8] = some (.jsr 0x9001#16) ∧ encode (.jsr 0x9001#16) = [0b00100000#8, 0b00000001#8, 0b10010000#8] := by decide
theorem test_decode_rts : fromBytes [0b01100000#8] = some (.rts) ∧ encode (.rts) = [0b01100000#8] := by decide
theorem test_decode_brk : fromBytes [0b00000000#8] = some (.brk) ∧ encode (.brk) = [0b00000000#8] := by decide

/-- V59 to V65: opcodes that are not in the table, some of them one bit away from one that is. -/
theorem test_decode_rejects :
    ([0xFF#8, 0xEA#8, 0x01#8, 0x40#8, 0xA1#8, 0xA5#8, 0x4C#8].map fun b => decode [b, 0#8, 0#8]) =
      [0xFF#8, 0xEA#8, 0x01#8, 0x40#8, 0xA1#8, 0xA5#8, 0x4C#8].map fun b => .error (.illegalOpcode b) := by decide

theorem test_decode_truncated :
    decode [] = .error .noBytes ∧ decode [0xA9#8] = .error (.missingOperand .lda) ∧
      decode [0x20#8, 0x00#8] = .error (.missingOperand .jsr) := by decide

/-! ## Single steps -/

/-- A running state of the vectors (95_test_vectors.md section 1). -/
def start (a x y sp p : Byte) (pc : Word) (cells : List (Word × Byte)) : State :=
  loadImage cells { a, x, y, pc, sp, p, mem := [], run := .running, faultOp := none, faultAddr := none }

/-- A, X, Y, SP, P, PC and RUN of a state, as the vectors list them. -/
structure Seen where
  a : Byte
  x : Byte
  y : Byte
  sp : Byte
  p : Byte
  pc : Word
  run : RunState
  deriving DecidableEq, Repr

/-- What the vectors list, after one step. -/
def after (s : State) : Option Seen :=
  match step s with
  | .next t => some ⟨t.a, t.x, t.y, t.sp, t.p, t.pc, t.run⟩
  | .fault _ => none
  | .refused _ => none

/-- One byte of memory after one step. -/
def byteAfter (s : State) (b : Word) : Option Byte :=
  match step s with
  | .next t => some (t.mem.read b)
  | .fault _ => none
  | .refused _ => none

/-- The fault report after one step. -/
def reportAfter (s : State) : Option (Byte × Word) :=
  match step s with
  | .next t => faultReport t
  | .fault _ => none
  | .refused _ => none

/-- V5. -/
theorem test_lda_inert_bits :
    after (start 0x11#8 0x22#8 0x33#8 0xFD#8 0xFF#8 0x0600#16 [(0x0600#16, 0xA9#8), (0x0601#16, 0x7F#8)]) =
      some ⟨0x7F#8, 0x22#8, 0x33#8, 0xFD#8, 0x7D#8, 0x0602#16, .running⟩ := by decide

/-- V6. -/
theorem test_lda_across_top :
    after (start 0x11#8 0x22#8 0x33#8 0xFD#8 0x24#8 0xFFFF#16 [(0xFFFF#16, 0xA9#8), (0x0000#16, 0x42#8)]) =
      some ⟨0x42#8, 0x22#8, 0x33#8, 0xFD#8, 0x24#8, 0x0001#16, .running⟩ := by decide

/-- V9. -/
theorem test_ldx_negative :
    after (start 0x11#8 0x22#8 0x33#8 0xFD#8 0x24#8 0x0600#16 [(0x0600#16, 0xA2#8), (0x0601#16, 0x80#8)]) =
      some ⟨0x11#8, 0x80#8, 0x33#8, 0xFD#8, 0xA4#8, 0x0602#16, .running⟩ := by decide

/-- V11. -/
theorem test_ldy_zero :
    after (start 0x11#8 0x22#8 0x33#8 0xFD#8 0xA4#8 0x0600#16 [(0x0600#16, 0xA0#8), (0x0601#16, 0x00#8)]) =
      some ⟨0x11#8, 0x22#8, 0x00#8, 0xFD#8, 0x26#8, 0x0602#16, .running⟩ := by decide

/-- V15. -/
theorem test_tax :
    after (start 0x80#8 0x01#8 0x33#8 0xFD#8 0x24#8 0x0600#16 [(0x0600#16, 0xAA#8)]) =
      some ⟨0x80#8, 0x80#8, 0x33#8, 0xFD#8, 0xA4#8, 0x0601#16, .running⟩ := by decide

/-- V17. -/
theorem test_txa :
    after (start 0x55#8 0x00#8 0x33#8 0xFD#8 0xA4#8 0x0600#16 [(0x0600#16, 0x8A#8)]) =
      some ⟨0x00#8, 0x00#8, 0x33#8, 0xFD#8, 0x26#8, 0x0601#16, .running⟩ := by decide

/-- V22. -/
theorem test_tay :
    after (start 0x7F#8 0x22#8 0xFF#8 0xFD#8 0xA4#8 0x0600#16 [(0x0600#16, 0xA8#8)]) =
      some ⟨0x7F#8, 0x22#8, 0x7F#8, 0xFD#8, 0x24#8, 0x0601#16, .running⟩ := by decide

/-- V25. -/
theorem test_tya :
    after (start 0x00#8 0x22#8 0x40#8 0xFD#8 0xFF#8 0x0600#16 [(0x0600#16, 0x98#8)]) =
      some ⟨0x40#8, 0x22#8, 0x40#8, 0xFD#8, 0x7D#8, 0x0601#16, .running⟩ := by decide

/-- V26. -/
theorem test_inx_wraps :
    after (start 0x11#8 0xFF#8 0x33#8 0xFD#8 0xA4#8 0x0600#16 [(0x0600#16, 0xE8#8)]) =
      some ⟨0x11#8, 0x00#8, 0x33#8, 0xFD#8, 0x26#8, 0x0601#16, .running⟩ := by decide

/-- V29. -/
theorem test_inx_keeps_bit_0 :
    after (start 0x11#8 0xFE#8 0x33#8 0xFD#8 0xA5#8 0x0600#16 [(0x0600#16, 0xE8#8)]) =
      some ⟨0x11#8, 0xFF#8, 0x33#8, 0xFD#8, 0xA5#8, 0x0601#16, .running⟩ := by decide

/-- V30. -/
theorem test_dex_wraps :
    after (start 0x11#8 0x00#8 0x33#8 0xFD#8 0x26#8 0x0600#16 [(0x0600#16, 0xCA#8)]) =
      some ⟨0x11#8, 0xFF#8, 0x33#8, 0xFD#8, 0xA4#8, 0x0601#16, .running⟩ := by decide

/-- V34. -/
theorem test_iny :
    after (start 0x11#8 0x22#8 0x7F#8 0xFD#8 0x24#8 0x0600#16 [(0x0600#16, 0xC8#8)]) =
      some ⟨0x11#8, 0x22#8, 0x80#8, 0xFD#8, 0xA4#8, 0x0601#16, .running⟩ := by decide

/-- V38. -/
theorem test_dey :
    after (start 0x11#8 0x22#8 0x80#8 0xFD#8 0xA4#8 0x0600#16 [(0x0600#16, 0x88#8)]) =
      some ⟨0x11#8, 0x22#8, 0x7F#8, 0xFD#8, 0x24#8, 0x0601#16, .running⟩ := by decide

/-- V49. -/
theorem test_jsr_in_stack_page :
    after (start 0x11#8 0x22#8 0x33#8 0xFD#8 0x24#8 0x01FB#16 [(0x01FB#16, 0x20#8), (0x01FC#16, 0x00#8), (0x01FD#16, 0x03#8)]) =
      some ⟨0x11#8, 0x22#8, 0x33#8, 0xFB#8, 0x24#8, 0x0300#16, .running⟩ := by decide

/-- V42: the pushed word straddles the wrap of the stack page; V46: the pushed address wraps. -/
theorem test_jsr_pushes :
    byteAfter (start 0x11#8 0x22#8 0x33#8 0x00#8 0x24#8 0x0600#16 [(0x0600#16, 0x20#8), (0x0601#16, 0x34#8), (0x0602#16, 0x12#8)])
        0x0100#16 = some 0x06#8 ∧
    byteAfter (start 0x11#8 0x22#8 0x33#8 0x00#8 0x24#8 0x0600#16 [(0x0600#16, 0x20#8), (0x0601#16, 0x34#8), (0x0602#16, 0x12#8)])
        0x01FF#16 = some 0x02#8 ∧
    byteAfter (start 0x11#8 0x22#8 0x33#8 0xFD#8 0x24#8 0xFFFF#16 [(0xFFFF#16, 0x20#8), (0x0000#16, 0x00#8), (0x0001#16, 0x40#8)])
        0x01FC#16 = some 0x01#8 := by decide

/-- V52. -/
theorem test_rts_wrap :
    after (start 0x11#8 0x22#8 0x33#8 0xFE#8 0x24#8 0x9002#16 [(0x9002#16, 0x60#8), (0x01FF#16, 0x34#8), (0x0100#16, 0x12#8)]) =
      some ⟨0x11#8, 0x22#8, 0x33#8, 0x00#8, 0x24#8, 0x1235#16, .running⟩ := by decide

/-- V53. -/
theorem test_rts_carry :
    after (start 0x11#8 0x22#8 0x33#8 0xFD#8 0x24#8 0x9002#16 [(0x9002#16, 0x60#8), (0x01FE#16, 0xFF#8), (0x01FF#16, 0x8F#8)]) =
      some ⟨0x11#8, 0x22#8, 0x33#8, 0xFF#8, 0x24#8, 0x9000#16, .running⟩ := by decide

/-- V58. -/
theorem test_brk_pushes_nothing :
    after (start 0x11#8 0x22#8 0x33#8 0x80#8 0x00#8 0x0600#16 [(0x0600#16, 0x00#8)]) =
      some ⟨0x11#8, 0x22#8, 0x33#8, 0x80#8, 0x00#8, 0x0601#16, .halted⟩ := by decide

/-- V57. -/
theorem test_brk_at_top :
    after (start 0x11#8 0x22#8 0x33#8 0xFD#8 0x26#8 0xFFFF#16 [(0xFFFF#16, 0x00#8)]) =
      some ⟨0x11#8, 0x22#8, 0x33#8, 0xFD#8, 0x26#8, 0x0000#16, .halted⟩ := by decide

/-- V62. -/
theorem test_unknown_opcode :
    after (start 0x11#8 0x22#8 0x33#8 0xFD#8 0x24#8 0xFFFF#16 [(0xFFFF#16, 0x40#8)]) =
      some ⟨0x11#8, 0x22#8, 0x33#8, 0xFD#8, 0x24#8, 0x0000#16, .faulted⟩ := by decide

/-- V59 (the source's S5): the report. -/
theorem test_fault_report :
    reportAfter (start 0x11#8 0x22#8 0x33#8 0xFD#8 0x24#8 0x8000#16 [(0x8000#16, 0xFF#8)]) = some (0xFF#8, 0x8000#16) := by
  decide

/-- W2, W5: word reads across the top of the address space. -/
theorem test_word_reads :
    (start 0#8 0#8 0#8 0xFD#8 0x24#8 0xFFFF#16 [(0xFFFF#16, 0x34#8), (0x0000#16, 0x12#8)]).mem.readWord 0xFFFF#16 = 0x1234#16 ∧
    (fetchWord (start 0#8 0#8 0#8 0xFD#8 0x24#8 0xFFFF#16 [(0xFFFF#16, 0x34#8), (0x0000#16, 0x12#8)])).1 = 0x1234#16 := by
  decide

/-- Table of S6: `SetZN` on prior values of `P`. -/
theorem test_setZN :
    setZN 0x00#8 0xFF#8 = 0x7F#8 ∧ setZN 0x7F#8 0xFF#8 = 0x7D#8 ∧ setZN 0xFF#8 0x7D#8 = 0xFD#8 ∧ setZN 0x40#8 0x82#8 = 0x00#8 := by
  decide

/-- X2: reset out of `HALTED`. -/
theorem test_reset_from_halted :
    applyReset { start 0x01#8 0x81#8 0xFF#8 0xF9#8 0xA4#8 0x8006#16 [(0xFFFC#16, 0xFE#8)] with run := .halted } =
      start 0x00#8 0x00#8 0x00#8 0xFD#8 0x24#8 0xFFFE#16 [(0xFFFC#16, 0xFE#8)] := by decide

/-- R53, the `JSR` line, for V40. -/
theorem test_bus_jsr :
    busAccesses (start 0x11#8 0x22#8 0x33#8 0xFD#8 0x24#8 0x8000#16 [(0x8000#16, 0x20#8), (0x8001#16, 0x00#8), (0x8002#16, 0x90#8)]) =
      [.read 0x8000#16, .read 0x8001#16, .read 0x8002#16, .write 0x01FD#16 0x80#8, .write 0x01FC#16 0x02#8] := by decide

/-- R53, the `RTS` line, for V50. -/
theorem test_bus_rts :
    busAccesses (start 0x11#8 0x22#8 0x33#8 0xFB#8 0x24#8 0x9002#16 [(0x9002#16, 0x60#8)]) =
      [.read 0x9002#16, .read 0x01FC#16, .read 0x01FD#16] := by decide

/-- The outputs of 92_eei_decisions.md D1. -/
theorem test_outputs :
    haltOutput { State.reset with run := .halted } = true ∧ faultOutput { State.reset with run := .halted } = false := by decide

/-- S1: boot, then `LDA #$10`. -/
theorem test_boot :
    after (boot [(0xFFFC#16, 0x00#8), (0xFFFD#16, 0x80#8), (0x8000#16, 0xA9#8), (0x8001#16, 0x10#8)]
        { State.reset with run := .uninit }) =
      some ⟨0x10#8, 0x00#8, 0x00#8, 0xFD#8, 0x24#8, 0x8002#16, .running⟩ := by decide

/-- A word placed after reset is the first instruction run. -/
theorem test_placed_after_reset :
    after (State.reset.withFetchWord 16 0x42A9) = some ⟨0x42#8, 0x00#8, 0x00#8, 0xFD#8, 0x24#8, 0x0001#16, .running⟩ := by
  decide

/-! ## Witnesses: states and operands that meet the hypotheses of each statement -/

/-- A running state at 0x0600 with the default registers of the vectors and these bytes at `PC`. -/
def at600 (bytes : List Byte) : State :=
  { start 0x11#8 0x22#8 0x33#8 0xFD#8 0x24#8 0x0600#16 [] with mem := Memory.writeBytes [] 0x0600#16 bytes }

/-- The state after one step, itself where no step is enabled. -/
def next (s : State) : State := runSteps 1 s

theorem witness_WriteChangesOneCell : Memory.wf [(0xFFFC, 0x12#8)] = true ∧ (0xFFFD#16 : Word) ≠ 0xFFFC#16 := by decide

theorem witness_WriteKeepsCanonicalForm : Memory.wf [(0, 0x12#8), (0xFFFF, 0x00#8)] = true := by decide

theorem witness_EqualMemoriesAreEqualData :
    ∃ m n : Memory, m.wf = true ∧ n.wf = true ∧ m ≠ [] ∧ ∀ a : Word, m.read a = n.read a :=
  ⟨[(5, 0x12#8)], [(5, 0x12#8)], by decide, by decide, by decide, fun _ => rfl⟩

theorem witness_PushPopRoundTrip : (at600 [0x20#8]).mem.wf = true := by decide

theorem witness_StackWrapsInsidePage :
    (at600 [0x20#8]).mem.wf = true ∧ ({ at600 [0x20#8] with sp := 0x00#8 } : State).sp = 0x00#8 ∧
    ({ at600 [0x20#8] with sp := 0xFF#8 } : State).sp = 0xFF#8 ∧ ({ at600 [0x20#8] with sp := 0xFE#8 } : State).sp = 0xFE#8 ∧
    ¬ InStackPage 0x00FF#16 ∧ ¬ InStackPage 0x0200#16 ∧ InStackPage 0x0100#16 ∧ InStackPage 0x01FF#16 := by
  simp only [InStackPage]
  decide

theorem witness_IllegalOpcodesAreTheOthers : 0xFF#8 ∉ opcodes ∧ 0xA1#8 ∉ opcodes ∧ 0x00#8 ∈ opcodes ∧ 0xE8#8 ∈ opcodes := by decide

theorem witness_StepRunsTheDecodedInstruction :
    (at600 [0x20#8, 0x00#8, 0x90#8]).run = .running ∧
    decode [(at600 [0x20#8, 0x00#8, 0x90#8]).mem.read 0x0600#16, (at600 [0x20#8, 0x00#8, 0x90#8]).mem.read 0x0601#16,
      (at600 [0x20#8, 0x00#8, 0x90#8]).mem.read 0x0602#16] = .ok (.jsr 0x9000#16, []) := by decide

theorem witness_PlacedInstructionIsRun : State.reset.mem.wf = true := by decide

theorem witness_StepEnabledIffRunning : State.reset.run = .running ∧ ∃ t, step State.reset = .next t := ⟨rfl, _, rfl⟩

theorem witness_DisabledStepIsANamedFault :
    step { State.reset with run := .uninit } = .fault .stepBeforeReset ∧ step { State.reset with run := .halted } = .fault .stepAfterHalt ∧
    step { State.reset with run := .faulted } = .fault .stepAfterFault :=
  ⟨rfl, rfl, rfl⟩

theorem witness_OutcomeDecidedByOpcode :
    (at600 [0x00#8]).run = .running ∧ (next (at600 [0x00#8])).run = .halted ∧ (next (at600 [0x02#8])).run = .faulted ∧
    (next (at600 [0xE8#8])).run = .running := by decide

theorem witness_LoadImmediateInstructions :
    Fetches (at600 [0xA9#8, 0x00#8]) [0xA9#8, 0x00#8] ∧ Fetches (at600 [0xA2#8, 0x80#8]) [0xA2#8, 0x80#8] ∧
    Fetches (at600 [0xA0#8, 0xFF#8]) [0xA0#8, 0xFF#8] :=
  ⟨⟨rfl, rfl, rfl, trivial⟩, ⟨rfl, rfl, rfl, trivial⟩, ⟨rfl, rfl, rfl, trivial⟩⟩

theorem witness_TransferInstructions :
    Fetches (at600 [0xAA#8]) [0xAA#8] ∧ Fetches (at600 [0x8A#8]) [0x8A#8] ∧ Fetches (at600 [0xA8#8]) [0xA8#8] ∧
    Fetches (at600 [0x98#8]) [0x98#8] :=
  ⟨⟨rfl, rfl, trivial⟩, ⟨rfl, rfl, trivial⟩, ⟨rfl, rfl, trivial⟩, ⟨rfl, rfl, trivial⟩⟩

theorem witness_IncrementDecrementInstructions :
    Fetches (at600 [0xE8#8]) [0xE8#8] ∧ Fetches (at600 [0xCA#8]) [0xCA#8] ∧ Fetches (at600 [0xC8#8]) [0xC8#8] ∧
    Fetches (at600 [0x88#8]) [0x88#8] :=
  ⟨⟨rfl, rfl, trivial⟩, ⟨rfl, rfl, trivial⟩, ⟨rfl, rfl, trivial⟩, ⟨rfl, rfl, trivial⟩⟩

/-- The start of the source's subroutine scenario (S4). -/
def callState : State := at600 [0x20#8, 0x00#8, 0x90#8]

theorem witness_JsrCallsSubroutine : Fetches callState [0x20#8, 0x00#8, 0x90#8] ∧ callState.mem.wf = true :=
  ⟨⟨rfl, rfl, rfl, rfl, trivial⟩, by decide⟩

theorem witness_RtsReturnsFromSubroutine : Fetches (at600 [0x60#8]) [0x60#8] := ⟨rfl, rfl, trivial⟩

theorem witness_BrkHalts : Fetches (at600 [0x00#8]) [0x00#8] := ⟨rfl, rfl, trivial⟩

theorem witness_UnknownOpcodeFaults : (at600 [0x02#8]).run = .running ∧ (at600 [0x02#8]).mem.read 0x0600#16 ∉ opcodes := by decide

/-- The state the call leaves, with an `RTS` placed at the target. -/
def returnState : State := (next callState).withFetchWord 8 0x60

theorem witness_CallAndReturnPair :
    callState.mem.wf = true ∧ Fetches callState [0x20#8, 0x00#8, 0x90#8] ∧ Fetches returnState [0x60#8] ∧
    returnState.sp = (next callState).sp ∧
    returnState.mem.read (stackAddrOf callState.sp) = (next callState).mem.read (stackAddrOf callState.sp) ∧
    returnState.mem.read (stackAddrOf (callState.sp - 1)) = (next callState).mem.read (stackAddrOf (callState.sp - 1)) :=
  ⟨by decide, ⟨rfl, rfl, rfl, rfl, trivial⟩, ⟨rfl, rfl, trivial⟩, rfl, rfl, rfl⟩

/-- The start of program P6: a call whose target is the cell of its own low byte. -/
def selfWritingCall : State :=
  { start 0x00#8 0x00#8 0x00#8 0xFD#8 0x24#8 0x00E6#16 [] with
    mem := Memory.writeBytes [] 0x00E6#16 [0x20#8, 0xFC#8, 0x01#8] }

theorem witness_PushedByteIsFetchedNext :
    selfWritingCall.mem.wf = true ∧ Fetches selfWritingCall [0x20#8, 0xFC#8, 0x01#8] ∧
    joinBytes 0x01#8 0xFC#8 = stackAddrOf (selfWritingCall.sp - 1) :=
  ⟨by decide, ⟨rfl, rfl, rfl, rfl, trivial⟩, by decide⟩

/-- Memory whose vector points at a `JSR`. -/
def bootsToCall : State :=
  { State.reset with mem := [(0x0600, 0x20#8), (0x0601, 0x00#8), (0x0602, 0x07#8), (0xFFFC, 0x00#8), (0xFFFD, 0x06#8)] }

theorem witness_StackPointerCountsNestedCalls :
    netCalls 0 (applyReset bootsToCall) = 0 ∧ netCalls 1 (applyReset bootsToCall) = 1 ∧
    (runSteps 1 (applyReset bootsToCall)).sp = 0xFB#8 := by decide

theorem witness_StackHolds128Calls : (1 : Nat) ≤ 1 ∧ (1 : Nat) < 128 ∧ (128 : Nat) ≤ 128 := by decide

theorem witness_ResetForgetsAllButMemory :
    ∃ s t : State, s ≠ t ∧ s.run ≠ t.run ∧ s.mem = t.mem :=
  ⟨State.reset, { State.reset with run := .faulted, a := 0x55#8 }, by decide, by decide, rfl⟩

theorem witness_ResetStateIsResetOfUnlistedMemory : ({ at600 [] with run := .uninit } : State).mem = [] := rfl

theorem witness_HostWriteSeenAtOnce : (at600 [0x00#8]).mem.wf = true ∧ (0x0600#16 : Word) ≠ 0x0601#16 := by decide

theorem witness_OnlyResetLeavesAStoppedState :
    ∃ s t : State, command (.write 0x0600#16 0x60#8) s = .next t ∧ s.run ≠ .running ∧ Command.write 0x0600#16 0x60#8 ≠ .reset ∧
      t.run = .uninit :=
  ⟨{ at600 [0x00#8] with run := .uninit }, _, rfl, by decide, by decide, rfl⟩

theorem witness_EndOfARunStays : (runSteps 1 (at600 [0x00#8])).run ≠ .running := by decide

theorem witness_WritersOfEachRegister :
    (next (at600 [0xA9#8, 0x01#8])).a ≠ (at600 [0xA9#8, 0x01#8]).a ∧ (next (at600 [0xE8#8])).x ≠ (at600 [0xE8#8]).x ∧
    (next (at600 [0x88#8])).y ≠ (at600 [0x88#8]).y ∧ (next callState).sp ≠ callState.sp ∧
    (next (at600 [0xA0#8, 0x00#8])).p ≠ (at600 [0xA0#8, 0x00#8]).p ∧ (next callState).mem ≠ callState.mem ∧
    (next (at600 [0x00#8])).run ≠ (at600 [0x00#8]).run ∧ (next (at600 [0x02#8])).faultOp ≠ (at600 [0x02#8]).faultOp ∧
    (at600 [0xAA#8]).mem.read 0x0600#16 ∉ [0x20#8, 0x60#8] := by decide

theorem witness_InertStatusBitsNeverChange : ∃ t, step (at600 [0xA9#8, 0x00#8]) = .next t ∧ t.p.getLsbD 5 = true :=
  ⟨_, rfl, by decide⟩

theorem witness_OnlyCallsWriteMemoryInStackPage :
    callState.mem.wf = true ∧ (∃ t, step callState = .next t) ∧
    (next callState).mem.read 0x01FD#16 ≠ callState.mem.read 0x01FD#16 ∧
    (next callState).mem.read 0x01FC#16 ≠ callState.mem.read 0x01FC#16 :=
  ⟨by decide, ⟨_, rfl⟩, by decide, by decide⟩

theorem witness_StepKeepsInvariant : Inv callState ∧ (∃ t, step callState = .next t) ∧ Inv (at600 [0x02#8]) :=
  ⟨⟨by decide, rfl, rfl⟩, ⟨_, rfl⟩, ⟨by decide, rfl, rfl⟩⟩

theorem witness_HostCommandsKeepInvariant :
    Inv (next (at600 [0x02#8])) ∧ ∃ t, command .reset (next (at600 [0x02#8])) = .next t :=
  ⟨⟨by decide, 0x02#8, 0x0600#16, rfl, rfl, rfl⟩, _, rfl⟩

theorem witness_InvariantHoldsAtReset :
    ({ at600 [0x00#8] with run := .uninit } : State).mem.wf = true ∧ State.PoweredOn { at600 [0x00#8] with run := .uninit } :=
  ⟨by decide, rfl, rfl, rfl⟩

theorem witness_StepKeepsReachableRegisters : ReachableRegs callState ∧ ∃ t, step callState = .next t :=
  ⟨⟨by decide, by decide, by decide⟩, _, rfl⟩

theorem witness_ReachableStates : bootsToCall.mem.wf = true ∧ ¬ InStackPage 0x00FF#16 ∧ ¬ InStackPage 0x0200#16 := by
  simp only [InStackPage]
  decide

theorem witness_OneToFiveBusAccesses :
    callState.run = .running ∧ (busAccesses callState).length = 5 ∧ (busAccesses (at600 [0x02#8])).length = 1 := by decide

theorem witness_BusWritesAreTheStores : ∃ t, step callState = .next t := ⟨_, rfl⟩

/-- Two memories that differ only where the step does not read. -/
theorem witness_StepReadsOnlyItsBusReads :
    ∃ (s t : State) (m : Memory), (∀ a : Word, .read a ∈ busAccesses s → m.read a = s.mem.read a) ∧ step s = .next t ∧
      m.read 0x0601#16 ≠ s.mem.read 0x0601#16 := by
  refine ⟨at600 [0xE8#8], _, (at600 [0xE8#8, 0x12#8]).mem, ?_, rfl, by decide⟩
  intro a ha
  have hb : busAccesses (at600 [0xE8#8]) = [.read 0x0600#16] := by decide
  rw [hb, List.mem_singleton] at ha
  cases ha
  decide

end Sys2Proof.Tests
end

section
/-! The obligation of 00_scope.md: the halves of a word as numbers, beside `joinBytes_toNat` for the concatenation. -/

namespace Sys2Proof.Machine

/-- `w[7:0]` is the remainder of `w` by 256 (R6). -/
theorem lowByte_toNat (w : Word) : (lowByte w).toNat = w.toNat % 256 :=
  BitVec.toNat_setWidth 8 w

/-- `w[15:8]` is the quotient of `w` by 256 (R6): the shifted word already fits in 8 bits. -/
theorem highByte_toNat (w : Word) : (highByte w).toNat = w.toNat / 256 := by
  have hw : w.toNat < 2 ^ 16 := w.isLt
  rw [highByte, BitVec.toNat_setWidth, BitVec.toNat_ushiftRight, Nat.shiftRight_eq_div_pow]
  exact Nat.mod_eq_of_lt (by omega)

/-- Settles O1: the concatenation and the two halves of a word are `256 * h + l`, the remainder and the quotient by 256. -/
theorem wordHalvesAndConcatenation : Obligations.WordHalvesAndConcatenation :=
  ⟨joinBytes_toNat, fun w => ⟨lowByte_toNat w, highByte_toNat w⟩⟩

end Sys2Proof.Machine
end

section
/-! What one step can change, once for all state rules of 10_state.md: the shape of the state a step leaves, with the
opcode that leads to it, and for each piece of state the opcodes that write it (R10 to R17, R21). -/

namespace Sys2Proof

open Sys2Proof.Machine

/-- The general register that receives a row's result (41_load_immediate.md R83, 42_transfer.md R89,
43_increment_decrement.md R94); calls, returns and the halt produce none. -/
def Mnemonic.destination : Mnemonic → Option Reg
  | .lda | .txa | .tya => some .A
  | .ldx | .tax | .inx | .dex => some .X
  | .ldy | .tay | .iny | .dey => some .Y
  | .jsr | .rts | .brk => none

end Sys2Proof

namespace Sys2Proof.Machine

open Sys2Proof.Claims

/-! ## The opcode table -/

theorem opcode_mem_opcodes (m : Mnemonic) : m.opcode ∈ opcodes := by
  cases m <;> decide

/-- The bytes the dispatch ROM does not know are those outside the list of R58. -/
theorem ofOpcode_eq_none_iff {op : Byte} : Mnemonic.ofOpcode op = none ↔ op ∉ opcodes := by
  constructor
  · intro hnone hmem
    have hknown : ∀ o ∈ opcodes, Mnemonic.ofOpcode o ≠ none := by decide
    exact hknown op hmem hnone
  · intro hmem
    cases hm : Mnemonic.ofOpcode op with
    | none => rfl
    | some m => exact absurd (Mnemonic.opcode_of_ofOpcode hm ▸ opcode_mem_opcodes m) hmem

/-- The opcode bytes of the rows that write a register (R10). -/
def Reg.writers : Reg → List Byte
  | .A => [0xA9#8, 0x8A#8, 0x98#8]
  | .X => [0xA2#8, 0xAA#8, 0xE8#8, 0xCA#8]
  | .Y => [0xA0#8, 0xA8#8, 0xC8#8, 0x88#8]

theorem opcode_mem_writers {m : Mnemonic} {q : Reg} (h : m.destination = some q) : m.opcode ∈ q.writers := by
  cases m <;> cases h <;> decide

/-- A row with a destination is none of `JSR`, `RTS`, `BRK`. -/
theorem opcode_not_mem_of_destination {m : Mnemonic} {q : Reg} (h : m.destination = some q) :
    m.opcode ∉ [0x20#8, 0x60#8, 0x00#8] := by
  cases m <;> cases h <;> decide

/-- The length of a row with a destination, from its opcode byte (R57). -/
theorem length_of_destination {m : Mnemonic} {q : Reg} (h : m.destination = some q) :
    BitVec.ofNat 16 m.format.length = if m.opcode ∈ [0xA9#8, 0xA2#8, 0xA0#8] then 2 else 1 := by
  cases m <;> cases h <;> decide

/-! ## The shape of a step -/

/-- The states a step from `s` can leave, with the opcode byte that leads to each: a result in a register, a call, a
return, the halt, the exception (R70, R101). -/
inductive StepEffect (s : State) : State → Prop
  | result (m : Mnemonic) (r : Reg) (v : Byte) (hop : s.mem.read s.pc = m.opcode) (hdest : m.destination = some r) :
      StepEffect s ((s.setPc (s.pc + BitVec.ofNat 16 m.format.length)).writeResult r v)
  | call (addr : Word) (hop : s.mem.read s.pc = 0x20#8) : StepEffect s ((pushWord (s.pc + 2) s).setPc addr)
  | ret (hop : s.mem.read s.pc = 0x60#8) : StepEffect s ((popWord s).2.setPc ((popWord s).1 + 1))
  | stop (hop : s.mem.read s.pc = 0x00#8) : StepEffect s (halt (s.setPc (s.pc + 1)))
  | illegal (hop : s.mem.read s.pc ∉ opcodes) :
      StepEffect s (raiseIllegalOpcode (s.mem.read s.pc) s.pc (s.setPc (s.pc + 1)))

/-- Only a running machine steps (R72). -/
theorem running_of_step {s t : State} (h : step s = .next t) : s.run = .running :=
  (step_next_cases h).1

/-- Every step that answers a next state has one of the five shapes. -/
theorem stepEffect_of_step {s t : State} (h : step s = .next t) : StepEffect s t := by
  obtain ⟨-, ⟨i, hrow, hexec⟩ | ⟨hrow, rfl⟩⟩ := step_next_cases h
  · have hop := Mnemonic.opcode_of_ofOpcode hrow
    cases i with
    | jsr addr =>
      cases hexec
      have hpc : s.pc + 3#16 - 1#16 = s.pc + 2#16 := by bv_omega
      exact hpc ▸ StepEffect.call addr hop
    | rts => cases hexec; exact .ret hop
    | brk => cases hexec; exact .stop hop
    | _ => cases hexec; exact .result _ _ _ hop rfl
  · exact .illegal (ofOpcode_eq_none_iff.mp hrow)

/-! ## The writers of each piece of state (R21) -/

@[simp] theorem popWord_snd (s : State) : (popWord s).2 = s.setSp (s.sp + 2) := by
  rw [popWord_eq]

/-- A general register changes only by a result of a row that writes it (R10). -/
theorem opcode_mem_writers_of_step {s t : State} (h : step s = .next t) (q : Reg) (hq : t.readReg q ≠ s.readReg q) :
    s.mem.read s.pc ∈ q.writers := by
  cases stepEffect_of_step h with
  | result m r v hop hdest =>
    have hqr : q = r := by
      by_contra hne
      simp [State.writeResult_readReg, hne] at hq
    exact hop ▸ opcode_mem_writers (hqr ▸ hdest)
  | call => simp at hq
  | ret => simp at hq
  | stop => simp [halt] at hq
  | illegal => simp [raiseIllegalOpcode] at hq

/-- `SP` goes down by two in a call, up by two in a return, and stays else (R12). -/
theorem step_sp {s t : State} (h : step s = .next t) :
    t.sp = s.sp ∨ (s.mem.read s.pc = 0x20#8 ∧ t.sp = s.sp - 2) ∨ (s.mem.read s.pc = 0x60#8 ∧ t.sp = s.sp + 2) := by
  cases stepEffect_of_step h with
  | call addr hop => exact .inr (.inl ⟨hop, by simp⟩)
  | ret hop => exact .inr (.inr ⟨hop, by simp⟩)
  | result => exact .inl (by simp)
  | stop => exact .inl rfl
  | illegal => exact .inl rfl

/-- `P` stays, or a row with a destination runs `SetZN` on it (R13, R18). -/
theorem step_p {s t : State} (h : step s = .next t) :
    t.p = s.p ∨ ∃ (m : Mnemonic) (r : Reg) (v : Byte),
      s.mem.read s.pc = m.opcode ∧ m.destination = some r ∧ t.p = setZN v s.p := by
  cases stepEffect_of_step h with
  | result m r v hop hdest => exact .inr ⟨m, r, v, hop, hdest, by simp⟩
  | call => exact .inl (by simp)
  | ret => exact .inl (by simp)
  | stop => exact .inl rfl
  | illegal => exact .inl rfl

/-- Memory stays, or a call pushes its return address (R15). -/
theorem step_mem {s t : State} (h : step s = .next t) :
    t.mem = s.mem ∨ (s.mem.read s.pc = 0x20#8 ∧ t.mem = (pushWord (s.pc + 2) s).mem) := by
  cases stepEffect_of_step h with
  | call addr hop => exact .inr ⟨hop, rfl⟩
  | result => exact .inl (by simp)
  | ret => exact .inl (by simp)
  | stop => exact .inl rfl
  | illegal => exact .inl rfl

/-- `RUN` and the latches stay, or `BRK` halts, or an unknown opcode is reported (R16, R17). -/
theorem step_control {s t : State} (h : step s = .next t) :
    (t.run = .running ∧ t.faultOp = s.faultOp ∧ t.faultAddr = s.faultAddr) ∨
    (s.mem.read s.pc = 0x00#8 ∧ t.run = .halted ∧ t.faultOp = s.faultOp ∧ t.faultAddr = s.faultAddr) ∨
    (s.mem.read s.pc ∉ opcodes ∧ t.run = .faulted ∧ t.faultOp = some (s.mem.read s.pc) ∧ t.faultAddr = some s.pc) := by
  have hrun := running_of_step h
  cases stepEffect_of_step h with
  | stop hop => exact .inr (.inl ⟨hop, rfl, rfl, rfl⟩)
  | illegal hop => exact .inr (.inr ⟨hop, rfl, rfl, rfl⟩)
  | result => exact .inl (by simp [hrun])
  | call => exact .inl (by simp [hrun])
  | ret => exact .inl (by simp [hrun])

/-- `PC` moves past the instruction, by the length its opcode decides, but for `JSR` and `RTS` (R11, R57). -/
theorem step_pc {s t : State} (h : step s = .next t) (hjump : s.mem.read s.pc ∉ [0x20#8, 0x60#8]) :
    t.pc = s.pc + (if s.mem.read s.pc ∈ [0xA9#8, 0xA2#8, 0xA0#8] then 2 else 1) := by
  cases stepEffect_of_step h with
  | result m r v hop hdest => simp [hop, length_of_destination hdest]
  | call addr hop => simp [hop] at hjump
  | ret hop => simp [hop] at hjump
  | stop hop => simp [hop, halt]
  | illegal hop =>
    have hlen : s.mem.read s.pc ∉ [0xA9#8, 0xA2#8, 0xA0#8] := fun hmem =>
      hop ((by decide : [0xA9#8, 0xA2#8, 0xA0#8] ⊆ opcodes) hmem)
    simp only [if_neg hlen]
    rfl

/-- Settles O43: each clause is the rule of its piece of state; the opcode lists are those of the rows involved. -/
theorem writersOfEachRegister : Obligations.WritersOfEachRegister := by
  intro s t h
  refine ⟨opcode_mem_writers_of_step h .A, opcode_mem_writers_of_step h .X, opcode_mem_writers_of_step h .Y,
    fun hsp => ?_, fun hp => ?_, fun hmem => ?_, fun hrun => ?_, fun hlatch => ?_, step_pc h⟩
  · obtain hkeep | ⟨hop, -⟩ | ⟨hop, -⟩ := step_sp h
    · exact absurd hkeep hsp
    · simp [hop]
    · simp [hop]
  · obtain hkeep | ⟨m, r, v, hop, hdest, -⟩ := step_p h
    · exact absurd hkeep hp
    · exact hop ▸ ⟨opcode_mem_opcodes m, opcode_not_mem_of_destination hdest⟩
  · obtain hkeep | ⟨hop, -⟩ := step_mem h
    · exact absurd hkeep hmem
    · exact hop
  · obtain ⟨hkeep, -⟩ | ⟨hop, -⟩ | ⟨hop, -⟩ := step_control h
    · exact absurd (hkeep.trans (running_of_step h).symm) hrun
    · exact .inl hop
    · exact .inr hop
  · obtain ⟨-, hop, haddr⟩ | ⟨-, -, hop, haddr⟩ | ⟨hunknown, -⟩ := step_control h
    · simp [hop, haddr] at hlatch
    · simp [hop, haddr] at hlatch
    · exact hunknown

end Sys2Proof.Machine
end

section
/-! The invariant of 10_state.md section 6: memory in canonical form and the latches as R17 says, at reset and along every
command of the host. -/

namespace Sys2Proof.Machine

open Sys2Proof.Claims

theorem step_keeps_wf {s t : State} (hwf : s.mem.wf = true) (h : step s = .next t) : t.mem.wf = true := by
  obtain hkeep | ⟨-, hpush⟩ := step_mem h
  · rw [hkeep]
    exact hwf
  · rw [hpush]
    exact pushWord_wf hwf _

theorem latchesOk_of_ne_faulted {s : State} (hrun : s.run ≠ .faulted) :
    LatchesOk s ↔ s.faultOp = none ∧ s.faultAddr = none := by
  unfold LatchesOk
  split
  · contradiction
  all_goals rfl

theorem latchesOk_of_faulted {s : State} (hrun : s.run = .faulted) :
    LatchesOk s ↔ ∃ op addr, s.faultOp = some op ∧ s.faultAddr = some addr ∧ Mnemonic.ofOpcode op = none := by
  simp only [LatchesOk, hrun]

/-- The latches are empty before a step; they stay so unless the step reports an unknown opcode (R17, R110). -/
theorem step_keeps_latchesOk {s t : State} (hok : LatchesOk s) (h : step s = .next t) : LatchesOk t := by
  have hempty := (latchesOk_of_ne_faulted (by simp [running_of_step h])).mp hok
  obtain ⟨hrun, hop, haddr⟩ | ⟨-, hrun, hop, haddr⟩ | ⟨hunknown, hrun, hop, haddr⟩ := step_control h
  · rw [latchesOk_of_ne_faulted (by simp [hrun]), hop, haddr]
    exact hempty
  · rw [latchesOk_of_ne_faulted (by simp [hrun]), hop, haddr]
    exact hempty
  · exact (latchesOk_of_faulted hrun).mpr ⟨_, _, hop, haddr, ofOpcode_eq_none_iff.mpr hunknown⟩

/-- Settles O46: the canonical form and the latches are kept one by one. -/
theorem stepKeepsInvariant : Obligations.StepKeepsInvariant :=
  fun _ _ ⟨hwf, hok⟩ h => ⟨step_keeps_wf hwf h, step_keeps_latchesOk hok h⟩

/-- `Reset()` establishes the invariant on any canonical memory (R130). -/
theorem inv_applyReset {s : State} (hwf : s.mem.wf = true) : Inv (applyReset s) :=
  ⟨hwf, rfl, rfl⟩

theorem inv_hostWrite {s : State} (h : Inv s) (addr : Word) (v : Byte) : Inv (hostWrite addr v s) :=
  ⟨Memory.wf_write h.1 addr v, h.2⟩

/-- Settles O47: by the command; a step is O46. -/
theorem hostCommandsKeepInvariant : Obligations.HostCommandsKeepInvariant := by
  intro c s t hinv h
  cases c with
  | reset => cases h; exact inv_applyReset hinv.1
  | step => exact stepKeepsInvariant s t hinv h
  | write addr v => cases h; exact inv_hostWrite hinv addr v

/-- Settles O48: `State.reset` lists no memory; a power-on state has no report and is not `FAULTED`. -/
theorem invariantHoldsAtReset : Obligations.InvariantHoldsAtReset := by
  refine ⟨⟨Memory.wf_nil, rfl, rfl⟩, fun s hwf => ⟨inv_applyReset hwf, ?_⟩⟩
  rintro ⟨hrun, hop, haddr⟩
  exact ⟨hwf, (latchesOk_of_ne_faulted (by simp [hrun])).mpr ⟨hop, haddr⟩⟩

end Sys2Proof.Machine
end

section
/-! Runs that have ended, and what leaves or enters a run state (10_state.md R16, R24; 40_step_cycle.md R74). -/

namespace Sys2Proof.Machine

theorem runSteps_succ_of_next {s t : State} (h : step s = .next t) (k : Nat) : runSteps (k + 1) s = runSteps k t := by
  simp only [runSteps, h]

/-- Where no step is enabled a run stays where it is (R72, R74). -/
theorem runSteps_of_no_next {s : State} (h : ∀ t, step s ≠ .next t) (k : Nat) : runSteps k s = s := by
  cases k with
  | zero => rfl
  | succ k =>
    unfold runSteps
    split
    case h_1 t hnext => exact absurd hnext (h t)
    all_goals rfl

theorem runSteps_of_not_running {s : State} (h : s.run ≠ .running) (k : Nat) : runSteps k s = s :=
  runSteps_of_no_next (fun _ hnext => h (running_of_step hnext)) k

/-- A run of `k + n` steps is one of `k` and then one of `n`. -/
theorem runSteps_add (k n : Nat) (s : State) : runSteps (k + n) s = runSteps n (runSteps k s) := by
  induction k generalizing s with
  | zero => rw [Nat.zero_add, runSteps]
  | succ k ih =>
    by_cases hnext : ∃ t, step s = .next t
    · obtain ⟨t, ht⟩ := hnext
      rw [Nat.succ_add, runSteps_succ_of_next ht, runSteps_succ_of_next ht, ih]
    · rw [not_exists] at hnext
      simp only [runSteps_of_no_next hnext]

/-- What every step keeps holds along a run. -/
theorem runSteps_induction {Q : State → Prop} (hkeep : ∀ s t, Q s → step s = .next t → Q t) {s : State} (hs : Q s)
    (k : Nat) : Q (runSteps k s) := by
  induction k generalizing s with
  | zero => exact hs
  | succ k ih =>
    by_cases hnext : ∃ t, step s = .next t
    · obtain ⟨t, ht⟩ := hnext
      rw [runSteps_succ_of_next ht]
      exact ih (hkeep s t hs ht)
    · rw [runSteps_of_no_next (not_exists.mp hnext)]
      exact hs

/-- Settles O41: the run goes on from its state after `k` steps, where no step is enabled. -/
theorem endOfARunStays : Obligations.EndOfARunStays := by
  intro s k n hended
  rw [runSteps_add, runSteps_of_not_running hended]

/-- Settles O40: by the command; a step needs `RUNNING` and answers one of the three other run states. -/
theorem onlyResetLeavesAStoppedState : Obligations.OnlyResetLeavesAStoppedState := by
  intro c s t h
  cases c with
  | reset =>
    cases h
    exact ⟨fun _ hne => absurd rfl hne, fun huninit => nomatch huninit⟩
  | step =>
    refine ⟨fun hstopped => absurd (running_of_step h) hstopped, fun huninit => ?_⟩
    obtain ⟨hrun, -⟩ | ⟨-, hrun, -⟩ | ⟨-, hrun, -⟩ := step_control h <;> simp [hrun] at huninit
  | write addr v =>
    cases h
    exact ⟨fun _ _ => rfl, id⟩

end Sys2Proof.Machine
end

section
/-! The status register (10_state.md R14, R18) and what holds in every state reached from `Reset()` (R22). -/

namespace Sys2Proof.Machine

open Sys2Proof.Claims

@[simp] theorem zeroFlag_setZN (v p : Byte) : zeroFlag (setZN v p) = decide (v = 0) := by
  rw [zeroFlag, setZN_getLsbD, if_pos rfl]

@[simp] theorem negativeFlag_setZN (v p : Byte) : negativeFlag (setZN v p) = v.getLsbD 7 :=
  setZN_getLsbD v p negativeBit

/-- `SetZN` keeps every bit but `Z` and `N` (R18). -/
theorem setZN_getLsbD_inert (v p : Byte) {i : Nat} (hz : i ≠ 1) (hn : i ≠ 7) : (setZN v p).getLsbD i = p.getLsbD i := by
  rw [setZN_getLsbD, zeroBit, negativeBit, if_neg hz, if_neg hn]

/-- Settles O23: `SetZN` bit by bit. -/
theorem setZNRecomputesZeroAndNegative : Obligations.SetZNRecomputesZeroAndNegative := by
  intro v p
  have hzero : zeroFlag (setZN v p) = true ↔ v = 0x00#8 := by simp
  exact ⟨⟨hzero, negativeFlag_setZN v p, fun _ _ hz hn => setZN_getLsbD_inert v p hz hn⟩, hzero, negativeFlag_setZN v p⟩

/-- The six inert bits stay in every step (R14). -/
theorem step_p_inert {s t : State} (h : step s = .next t) {i : Nat} (hz : i ≠ 1) (hn : i ≠ 7) :
    t.p.getLsbD i = s.p.getLsbD i := by
  obtain hkeep | ⟨-, -, v, -, -, hset⟩ := step_p h
  · rw [hkeep]
  · rw [hset, setZN_getLsbD_inert v s.p hz hn]

/-- Settles O44: only `SetZN` writes `P`, and it keeps the inert bits. -/
theorem inertStatusBitsNeverChange : Obligations.InertStatusBitsNeverChange :=
  fun _ hz hn => ⟨fun _ _ h => step_p_inert h hz hn, fun _ => rfl⟩

/-- Every stack address lies in the stack page (R39). -/
theorem stackAddrOf_inStackPage (sp : Byte) : InStackPage (stackAddrOf sp) := by
  have hsp := sp.isLt
  simp only [InStackPage, stackAddrOf_toNat]
  omega

/-- A push leaves every byte outside the stack page as it was (R44). -/
theorem pushWord_read_outside {s : State} (hwf : s.mem.wf = true) (w : Word) {b : Word} (hb : ¬ InStackPage b) :
    (pushWord w s).mem.read b = s.mem.read b :=
  pushWord_read_other hwf w (fun e => hb (e ▸ stackAddrOf_inStackPage _)) (fun e => hb (e ▸ stackAddrOf_inStackPage _))

/-- Settles O45: a step leaves memory alone or pushes, and a push stays in the stack page. -/
theorem onlyCallsWriteMemoryInStackPage : Obligations.OnlyCallsWriteMemoryInStackPage := by
  intro s t hwf h b hb
  obtain hkeep | ⟨hop, hpush⟩ := step_mem h
  · simp [hkeep] at hb
  · refine ⟨hop, ?_⟩
    by_contra hout
    exact hb (hpush ▸ pushWord_read_outside hwf _ hout)

/-- The mask of R22 keeps every bit but `Z` and `N`. -/
theorem inertMask_getLsbD : ∀ i, i < 8 → (0x7D#8).getLsbD i = decide (i ≠ 1 ∧ i ≠ 7) := by
  decide

/-- Two bytes agree under the mask exactly when they agree in the inert bits. -/
theorem and_inertMask_eq_iff {p q : Byte} :
    p &&& 0x7D#8 = q &&& 0x7D#8 ↔ ∀ i, i ≠ 1 → i ≠ 7 → p.getLsbD i = q.getLsbD i := by
  constructor
  · intro h i hz hn
    by_cases hi : i < 8
    · have hbit := congrArg (·.getLsbD i) h
      simpa [inertMask_getLsbD i hi, hz, hn] using hbit
    · rw [BitVec.getLsbD_of_ge p i (by omega), BitVec.getLsbD_of_ge q i (by omega)]
  · intro h
    apply BitVec.eq_of_getLsbD_eq
    intro i hi
    rw [BitVec.getLsbD_and, BitVec.getLsbD_and, inertMask_getLsbD i hi]
    by_cases hinert : i ≠ 1 ∧ i ≠ 7
    · rw [h i hinert.1 hinert.2]
    · simp [hinert]

/-- The inert bits and the two flags are all of `P` (R13, R14). -/
theorem status_ext {p q : Byte} (hinert : p &&& 0x7D#8 = q &&& 0x7D#8) (hz : zeroFlag p = zeroFlag q)
    (hn : negativeFlag p = negativeFlag q) : p = q := by
  apply BitVec.eq_of_getLsbD_eq
  intro i _
  by_cases h1 : i = 1
  · exact h1 ▸ hz
  · by_cases h7 : i = 7
    · exact h7 ▸ hn
    · exact and_inertMask_eq_iff.mp hinert i h1 h7

/-- Every step moves `SP` by an even number, so its parity stays (R22). -/
theorem step_sp_parity {s t : State} (h : step s = .next t) : t.sp.getLsbD 0 = s.sp.getLsbD 0 := by
  have hparity (x : Byte) : (x - 2).getLsbD 0 = x.getLsbD 0 ∧ (x + 2).getLsbD 0 = x.getLsbD 0 := by
    simp only [BitVec.getLsbD, Nat.testBit_zero, decide_eq_decide]
    constructor <;> bv_omega
  obtain hkeep | ⟨-, hcall⟩ | ⟨-, hret⟩ := step_sp h
  · rw [hkeep]
  · rw [hcall, (hparity s.sp).1]
  · rw [hret, (hparity s.sp).2]

/-- The zero byte is not negative, so `SetZN` never sets both flags (R22). -/
theorem not_both_flags_setZN (v p : Byte) : ¬ (zeroFlag (setZN v p) = true ∧ negativeFlag (setZN v p) = true) := by
  rw [zeroFlag_setZN, negativeFlag_setZN, decide_eq_true_eq]
  rintro ⟨rfl, hneg⟩
  exact absurd hneg (by decide)

/-- Settles O49: the parity of `SP`, the inert bits of `P` and its two flags, one by one. -/
theorem stepKeepsReachableRegisters : Obligations.StepKeepsReachableRegisters := by
  rintro s t ⟨hodd, hinert, hflags⟩ h
  refine ⟨(step_sp_parity h).trans hodd, (and_inertMask_eq_iff.mpr fun _ => step_p_inert h).trans hinert, ?_⟩
  obtain hkeep | ⟨-, -, v, -, -, hset⟩ := step_p h
  · rw [hkeep]
    exact hflags
  · rw [hset]
    exact not_both_flags_setZN v s.p

/-- The three status values of R22 (2). -/
theorem status_mem_of_reachableRegs {s : State} (h : ReachableRegs s) : s.p ∈ [0x24#8, 0x26#8, 0xA4#8] := by
  obtain ⟨-, hinert, hflags⟩ := h
  cases hz : zeroFlag s.p <;> cases hn : negativeFlag s.p
  · simp [status_ext (q := 0x24#8) hinert hz hn]
  · simp [status_ext (q := 0xA4#8) hinert hz hn]
  · simp [status_ext (q := 0x26#8) hinert hz hn]
  · exact absurd ⟨hz, hn⟩ hflags

/-- What R22 says of a state reached on the memory `m`, in a form that every step keeps. -/
structure ReachedOn (m : Memory) (s : State) : Prop where
  wf : s.mem.wf = true
  regs : ReachableRegs s
  outside : ∀ b : Word, ¬ InStackPage b → s.mem.read b = m.read b

theorem reachedOn_applyReset {s : State} (hwf : s.mem.wf = true) : ReachedOn s.mem (applyReset s) where
  wf := hwf
  regs := by
    simp only [ReachableRegs, applyReset]
    decide
  outside _ _ := rfl

theorem step_keeps_reachedOn {m : Memory} {s t : State} (hs : ReachedOn m s) (h : step s = .next t) : ReachedOn m t where
  wf := step_keeps_wf hs.wf h
  regs := stepKeepsReachableRegisters s t hs.regs h
  outside b hb := by
    by_contra hne
    rw [← hs.outside b hb] at hne
    exact hb (onlyCallsWriteMemoryInStackPage s t hs.wf h b hne).2

/-- Settles O50: `ReachedOn` the memory of the reset holds after `Reset()` and along the run. -/
theorem reachableStates : Obligations.ReachableStates := by
  intro s k hwf
  have hreached : ReachedOn s.mem (runSteps k (applyReset s)) :=
    runSteps_induction (fun _ _ => step_keeps_reachedOn) (reachedOn_applyReset hwf) k
  obtain ⟨hodd, hinert, -⟩ := hreached.regs
  refine ⟨?_, hinert, status_mem_of_reachableRegs hreached.regs, hreached.outside⟩
  simpa [BitVec.getLsbD, Nat.testBit_zero] using hodd

end Sys2Proof.Machine
end

section
/-! The memory and fetch primitives of 20_memory.md: one write (R34, R52), the word read (R35), `FetchByte` and `FetchWord`
(R37, R38). -/

namespace Sys2Proof.Machine

/-- Address arithmetic wraps modulo 65536 (R7). -/
theorem ofNat_succ_mod_eq_add_one (a : Word) : BitVec.ofNat 16 ((a.toNat + 1) % 65536) = a + 1 := by
  bv_omega

/-- Settles O2: read after write, at the cell and elsewhere. -/
theorem writeChangesOneCell : Obligations.WriteChangesOneCell :=
  fun _ a v hwf => ⟨Memory.read_write_same hwf a v, fun _ => Memory.read_write_ne hwf v⟩

/-- Settles O6: the concatenation of the two bytes as a number. -/
theorem wordReadIsLittleEndian : Obligations.WordReadIsLittleEndian := by
  intro m a
  rw [ofNat_succ_mod_eq_add_one, Memory.readWord, joinBytes_toNat]
  omega

/-- Settles O7: `FetchByte` writes `PC` alone, and the word is the concatenation of the two fetched bytes. -/
theorem fetchAdvancesPC : Obligations.FetchAdvancesPC := by
  refine fun s => ⟨rfl, ?_, ?_, rfl⟩
  · rw [ofNat_succ_mod_eq_add_one]
    rfl
  · have hword : (fetchWord s).1 = joinBytes (fetchByte (fetchByte s).2).1 (fetchByte s).1 := rfl
    rw [hword, joinBytes_toNat]
    omega

/-- Settles O39: the host's write is the memory write, and no other field is touched. -/
theorem hostWriteSeenAtOnce : Obligations.HostWriteSeenAtOnce :=
  fun s a v hwf =>
    ⟨hostWrite a v s, rfl, Memory.read_write_same hwf a v, fun _ => Memory.read_write_ne hwf v, rfl⟩

end Sys2Proof.Machine
end

section
/-! The stack of 20_memory.md section 4: its address (R39), one byte and one word pushed and popped (R40 to R43, R54), and the
wrap inside the page (R44). -/

namespace Sys2Proof.Machine

theorem stackAddrOf_eq_ofNat (sp : Byte) : stackAddrOf sp = BitVec.ofNat 16 (0x0100 + sp.toNat) := by
  apply BitVec.eq_of_toNat_eq
  rw [stackAddrOf_toNat, BitVec.toNat_ofNat, Nat.mod_eq_of_lt (by omega)]

theorem pushByte_sp (v : Byte) (s : State) : (pushByte v s).sp = s.sp - 1 := rfl

theorem pushByte_mem (v : Byte) (s : State) : (pushByte v s).mem = s.mem.write (stackAddrOf s.sp) v := rfl

theorem popByte_eq (s : State) : popByte s = (s.mem.read (stackAddrOf (s.sp + 1)), s.setSp (s.sp + 1)) := rfl

/-- The pushed byte is at the stack address of the `SP` before the push (R40). -/
theorem pushByte_read {s : State} (hwf : s.mem.wf = true) (v : Byte) :
    (pushByte v s).mem.read (stackAddrOf s.sp) = v :=
  Memory.read_write_same hwf _ v

/-- What `PopWord` returns depends on memory only at the two popped cells (R43). -/
theorem popWord_fst_setMem {s : State} {m : Memory}
    (hlow : m.read (stackAddrOf (s.sp + 1)) = s.mem.read (stackAddrOf (s.sp + 1)))
    (hhigh : m.read (stackAddrOf (s.sp + 2)) = s.mem.read (stackAddrOf (s.sp + 2))) :
    (popWord (s.setMem m)).1 = (popWord s).1 := by
  simp only [popWord_eq, State.setMem_mem, State.setMem_sp, hlow, hhigh]

/-- Settles O9: the address as a number, which decides both the page and the injectivity. -/
theorem stackAddressInPage : Obligations.StackAddressInPage :=
  fun s => ⟨stackAddrOf_toNat s.sp, stackAddrOf_inStackPage s.sp, fun _ => stackAddrOf_inj.mp⟩

/-- Settles O10: `SP` minus and plus one as numbers modulo 256. -/
theorem pushAndPopByte : Obligations.PushAndPopByte := by
  have hpred (sp : Byte) : BitVec.ofNat 8 ((sp.toNat + 255) % 256) = sp - 1 := by bv_omega
  have hsucc (sp : Byte) : BitVec.ofNat 8 ((sp.toNat + 1) % 256) = sp + 1 := by bv_omega
  refine ⟨fun v s => ?_, fun s => ⟨?_, ?_⟩⟩
  · rw [hpred]
    rfl
  · rw [hsucc]
    rfl
  · rw [popByte_eq, stackAddrOf_eq_ofNat]
    rfl

/-- Settles O11: the pop reads the two cells the push wrote, and the two halves make the word again. -/
theorem pushPopRoundTrip : Obligations.PushPopRoundTrip := by
  intro v s hwf
  have hone : s.sp - 2 + 1 = s.sp - 1 := by bv_omega
  have htwo : s.sp - 2 + 2 = s.sp := by bv_omega
  rw [popWord_eq, pushWord_sp, hone, htwo, pushWord_read_high hwf, pushWord_read_low hwf]
  exact ⟨joinBytes_high_low v, rfl⟩

/-- Settles O12: the cells of a push and a pop at the boundary values of `SP` are the two ends of the page; every other
clause holds at each `SP`, since a stack address never leaves the page. -/
theorem stackWrapsInsidePage : Obligations.StackWrapsInsidePage := by
  intro s hwf
  have hbottom : stackAddrOf 0x00#8 = 0x0100#16 := by decide
  have htop : stackAddrOf 0xFF#8 = 0x01FF#16 := by decide
  refine ⟨fun hsp v => ⟨?_, ?_⟩, fun hsp v w => ?_, fun hsp => ⟨?_, ?_⟩, fun hsp w => ⟨?_, ?_⟩, fun hsp => ?_,
    fun w b => pushWord_read_outside hwf w, fun m hm => ?_, fun w => pushWord_run w s, ?_⟩
  · rw [pushByte_sp, hsp]
    rfl
  · rw [← hbottom, ← hsp]
    exact pushByte_read hwf v
  · have hnext : stackAddrOf (pushByte v s).sp = 0x01FF#16 := by rw [pushByte_sp, hsp]; exact htop
    rw [← hnext]
    exact pushByte_read (Memory.wf_write hwf _ _) w
  · rw [popByte_eq, hsp]
    rfl
  · rw [popByte_eq, hsp, ← hbottom]
    rfl
  · rw [← hbottom, ← hsp]
    exact pushWord_read_high hwf w
  · have hlow : stackAddrOf (s.sp - 1) = 0x01FF#16 := by rw [hsp]; exact htop
    rw [← hlow]
    exact pushWord_read_low hwf w
  · rw [popWord_eq, hsp, ← hbottom, ← htop]
    rfl
  · exact popWord_fst_setMem (hm _ (stackAddrOf_inStackPage _)) (hm _ (stackAddrOf_inStackPage _))
  · rw [popWord_snd, State.setSp_run]

end Sys2Proof.Machine
end

section
/-! A `JSR` as a step, from its three bytes (44_subroutine.md R95), and the fetch of a byte it pushed (20_memory.md R49). -/

namespace Sys2Proof.Machine

open Sys2Proof.Claims

/-- The step on the three bytes of a `JSR`: the address of the third is pushed and `PC` takes the target (R95). -/
theorem step_of_fetches_jsr {s : State} {lo hi : Byte} (h : Fetches s [0x20#8, lo, hi]) :
    step s = .next ((pushWord (s.pc + 2) s).setPc (joinBytes hi lo)) := by
  obtain ⟨hrun, hop, hlo, hhi, -⟩ := h
  have hpc : s.pc + 1 + 1 = s.pc + 2 := by bv_omega
  rw [hpc] at hhi
  obtain ⟨i, hfetch, -, hdecode⟩ := fetchInstr_some (s := s) (m := .jsr) (by rw [hop]; rfl)
  have hinstr : i = .jsr (joinBytes hi lo) := by
    rw [hop, hlo, hhi] at hdecode
    cases hdecode
    rfl
  have hlast : s.pc + 3 - 1 = s.pc + 2 := by bv_omega
  rw [step_running_some hrun hfetch, hinstr, ← hlast]
  rfl

/-- Settles O33: the `JSR` leaves `PC` at the cell its second push wrote, so the next fetch reads the low byte. -/
theorem pushedByteIsFetchedNext : Obligations.PushedByteIsFetchedNext := by
  intro s lo hi hwf hfetch htarget
  refine ⟨_, step_of_fetches_jsr hfetch, ?_⟩
  rw [htarget]
  exact pushWord_read_low hwf _

end Sys2Proof.Machine
end

section
/-! The bus accesses of a step (20_memory.md R47, R53): their number, the memory their writes leave, and that a step sees
memory only through their reads. -/

namespace Sys2Proof.Machine

/-! ## The access list -/

theorem busAccesses_of_known {s : State} {m : Mnemonic} (hrun : s.run = .running)
    (hrow : Mnemonic.ofOpcode (s.mem.read s.pc) = some m) :
    busAccesses s = .read s.pc :: (operandAccesses m.format s.pc ++ stackAccesses m s.pc s.sp) := by
  simp [busAccesses, hrun, hrow]

theorem busAccesses_of_unknown {s : State} (hrun : s.run = .running)
    (hrow : Mnemonic.ofOpcode (s.mem.read s.pc) = none) : busAccesses s = [.read s.pc] := by
  simp [busAccesses, hrun, hrow]

theorem operandAccesses_length_le (f : Format) (p : Word) : (operandAccesses f p).length ≤ 2 := by
  cases f <;> simp [operandAccesses]

theorem stackAccesses_length_le (m : Mnemonic) (p : Word) (sp : Byte) : (stackAccesses m p sp).length ≤ 2 := by
  cases m <;> simp [stackAccesses]

/-- Settles O51: the opcode fetch, at most two operand fetches, at most two stack accesses. -/
theorem oneToFiveBusAccesses : Obligations.OneToFiveBusAccesses := by
  intro s hrun
  cases hrow : Mnemonic.ofOpcode (s.mem.read s.pc) with
  | none => simp [busAccesses_of_unknown hrun hrow]
  | some m =>
    have hoperand := operandAccesses_length_le m.format s.pc
    have hstack := stackAccesses_length_le m s.pc s.sp
    simp only [busAccesses_of_known hrun hrow, List.head?_cons, List.length_cons, List.length_append, true_and]
    omega

/-! ## The writes -/

theorem replayWrites_append (xs ys : List Access) (m : Memory) :
    replayWrites (xs ++ ys) m = replayWrites ys (replayWrites xs m) := by
  induction xs generalizing m with
  | nil => rfl
  | cons x xs ih => cases x <;> exact ih _

/-- Operand fetches write nothing (R53). -/
theorem replayWrites_operandAccesses (f : Format) (p : Word) (m : Memory) :
    replayWrites (operandAccesses f p) m = m := by
  cases f <;> rfl

/-- The writes of a step on a known row are its stack writes (R53). -/
theorem replayWrites_busAccesses {s : State} {row : Mnemonic} (hrun : s.run = .running) (hop : s.mem.read s.pc = row.opcode)
    (m : Memory) : replayWrites (busAccesses s) m = replayWrites (stackAccesses row s.pc s.sp) m := by
  have hrow : Mnemonic.ofOpcode (s.mem.read s.pc) = some row := by rw [hop, Mnemonic.ofOpcode_opcode]
  rw [busAccesses_of_known hrun hrow, replayWrites, replayWrites_append, replayWrites_operandAccesses]

/-- A row with a destination leaves the stack alone (R53). -/
theorem stackAccesses_of_destination {m : Mnemonic} {r : Reg} (hdest : m.destination = some r) (p : Word) (sp : Byte) :
    stackAccesses m p sp = [] := by
  cases m with
  | jsr | rts | brk => cases hdest
  | _ => rfl

/-- Settles O52: only a call has writes, and they are those of its push. -/
theorem busWritesAreTheStores : Obligations.BusWritesAreTheStores := by
  intro s t h
  have hrun := running_of_step h
  cases stepEffect_of_step h with
  | result row r v hop hdest =>
    rw [replayWrites_busAccesses hrun hop, stackAccesses_of_destination hdest, State.writeResult_mem]
    rfl
  | call addr hop =>
    rw [replayWrites_busAccesses (row := .jsr) hrun hop, pushWord_eq]
    rfl
  | ret hop =>
    rw [replayWrites_busAccesses (row := .rts) hrun hop, popWord_snd]
    rfl
  | stop hop =>
    rw [replayWrites_busAccesses (row := .brk) hrun hop]
    rfl
  | illegal hop =>
    rw [busAccesses_of_unknown hrun (ofOpcode_eq_none_iff.mpr hop)]
    rfl

/-! ## The reads -/

/-- The memory `m` agrees with that of `s` wherever a step from `s` reads. -/
def AgreesOnReads (s : State) (m : Memory) : Prop := ∀ a : Word, .read a ∈ busAccesses s → m.read a = s.mem.read a

theorem AgreesOnReads.opcode {s : State} {m : Memory} (h : AgreesOnReads s m) (hrun : s.run = .running) :
    m.read s.pc = s.mem.read s.pc := by
  apply h
  simp [busAccesses, hrun]

/-- The access list is the same on a memory that agrees at the opcode (R53). -/
theorem busAccesses_setMem {s : State} {m : Memory} (hop : m.read s.pc = s.mem.read s.pc) :
    busAccesses (s.setMem m) = busAccesses s := by
  simp [busAccesses, hop]

/-- The instruction bytes of a known row are read on the bus (R53, R70). -/
theorem fetchInstrBytes_setMem {s : State} {m : Memory} {row : Mnemonic} (h : AgreesOnReads s m) (hrun : s.run = .running)
    (hrow : Mnemonic.ofOpcode (s.mem.read s.pc) = some row) :
    fetchInstrBytes (s.setMem m) = ((fetchInstrBytes s).1, (fetchInstrBytes s).2.setMem m) := by
  have hop := h.opcode hrun
  have hoperand (a : Word) (ha : .read a ∈ operandAccesses row.format s.pc) : m.read a = s.mem.read a := by
    apply h
    simp [busAccesses_of_known hrun hrow, ha]
  have hrow' : Mnemonic.ofOpcode ((s.setMem m).mem.read (s.setMem m).pc) = some row := by simpa [hop] using hrow
  rw [fetchInstrBytes_some hrow, fetchInstrBytes_some hrow']
  simp only [State.setMem_mem, State.setMem_pc, hop]
  cases hformat : row.format with
  | imp => rfl
  | imm =>
    have hnext := hoperand (s.pc + 1) (by simp [hformat, operandAccesses])
    simp only [hnext]
    rfl
  | abs =>
    have hmiddle := hoperand (s.pc + 1) (by simp [hformat, operandAccesses])
    have hlast := hoperand (s.pc + 2) (by simp [hformat, operandAccesses])
    simp only [hmiddle, hlast]
    rfl

theorem fetchInstr_setMem {s : State} {m : Memory} {row : Mnemonic} (h : AgreesOnReads s m) (hrun : s.run = .running)
    (hrow : Mnemonic.ofOpcode (s.mem.read s.pc) = some row) :
    fetchInstr (s.setMem m) = ((fetchInstr s).1, (fetchInstr s).2.setMem m) := by
  simp only [fetchInstr, fetchInstrBytes_setMem h hrun hrow]
  split <;> rfl

/-- An instruction whose bytes have been fetched reads memory only in `RTS`, at the two cells it pops (R21, R96). -/
theorem exec_setMem {i : Instr} {s t : State} {m : Memory} (h : exec i s = .next t)
    (hpop : i = .rts → (popWord (s.setMem m)).1 = (popWord s).1) :
    ∃ u, exec i (s.setMem m) = .next u ∧ u = t.setMem u.mem := by
  cases i with
  | rts =>
    cases h
    refine ⟨_, rfl, ?_⟩
    simp only [hpop rfl, popWord_snd]
    rfl
  | jsr addr =>
    cases h
    refine ⟨_, rfl, ?_⟩
    simp only [pushWord_eq]
    rfl
  | _ =>
    cases h
    exact ⟨_, rfl, rfl⟩

/-- Settles O53: an unknown opcode is reported from the opcode byte alone; a known row is fetched alike and run alike. -/
theorem stepReadsOnlyItsBusReads : Obligations.StepReadsOnlyItsBusReads := by
  intro s t m hagree h
  have hreads : AgreesOnReads s m := hagree
  have hrun := running_of_step h
  have hrun' : (s.setMem m).run = .running := hrun
  have hop := hreads.opcode hrun
  refine ⟨busAccesses_setMem hop, ?_⟩
  cases hrow : Mnemonic.ofOpcode (s.mem.read s.pc) with
  | none =>
    rw [step_running_none hrun hrow] at h
    cases h
    refine ⟨_, step_running_none hrun' (by simpa [hop] using hrow), ?_⟩
    simp only [State.setMem_mem, State.setMem_pc, hop]
    rfl
  | some row =>
    obtain ⟨i, hfetch, hmnemonic, -⟩ := fetchInstr_some hrow
    have hfetch' := fetchInstr_setMem hreads hrun hrow
    rw [hfetch] at hfetch'
    rw [step_running_some hrun hfetch] at h
    rw [step_running_some hrun' hfetch']
    refine exec_setMem h fun hrts => ?_
    have hstack (a : Word) (ha : .read a ∈ stackAccesses .rts s.pc s.sp) : m.read a = s.mem.read a := by
      apply hreads
      rw [busAccesses_of_known hrun hrow, ← hmnemonic, hrts]
      exact List.mem_cons_of_mem _ (List.mem_append_right _ ha)
    exact popWord_fst_setMem (hstack _ (by simp [stackAccesses])) (hstack _ (by simp [stackAccesses]))

end Sys2Proof.Machine
end

section
/-! The opcode table and the decoder of 30_encoding.md: decoding inverts encoding (R55 to R58), the opcode byte alone decides
the length and whether the bytes are legal (R57, R59, R60). -/

namespace Sys2Proof.Machine

open Sys2Proof.Claims

/-! ## Decoding against encoding -/

theorem decodeImm_eq_ok_iff {m : Mnemonic} {mk : Byte → Instr} {bytes rest : List Byte} {i : Instr} :
    decodeImm m mk bytes = .ok (i, rest) ↔ ∃ imm, i = mk imm ∧ bytes = imm :: rest := by
  cases bytes with
  | nil => simp [decodeImm]
  | cons b bs => simp [decodeImm, eq_comm]

/-- The two operand bytes of format ABS are the halves of the address, the low one first (R56). -/
theorem decodeAbs_eq_ok_iff {m : Mnemonic} {mk : Word → Instr} {bytes rest : List Byte} {i : Instr} :
    decodeAbs m mk bytes = .ok (i, rest) ↔ ∃ addr, i = mk addr ∧ bytes = lowByte addr :: highByte addr :: rest := by
  constructor
  · intro h
    match bytes with
    | [] | [_] => simp [decodeAbs] at h
    | lo :: hi :: bs =>
      obtain ⟨rfl, rfl⟩ : mk (joinBytes hi lo) = i ∧ bs = rest := by simpa [decodeAbs] using h
      exact ⟨joinBytes hi lo, rfl, by simp⟩
  · rintro ⟨addr, rfl, rfl⟩
    simp [decodeAbs]

/-- The operand decoder reads exactly the operand bytes of the instructions of its row. -/
theorem decodeOperand_eq_ok_iff {m : Mnemonic} {bytes rest : List Byte} {i : Instr} :
    decodeOperand m bytes = .ok (i, rest) ↔ i.mnemonic = m ∧ bytes = i.operandBytes ++ rest := by
  constructor
  · intro h
    refine ⟨decodeOperand_mnemonic h, ?_⟩
    cases m with
    | lda | ldx | ldy =>
      obtain ⟨imm, rfl, rfl⟩ := decodeImm_eq_ok_iff.mp h
      rfl
    | jsr =>
      obtain ⟨addr, rfl, rfl⟩ := decodeAbs_eq_ok_iff.mp h
      rfl
    | _ => cases h; rfl
  · rintro ⟨rfl, rfl⟩
    cases i with
    | jsr addr => exact (decodeAbs_eq_ok_iff (m := .jsr)).mpr ⟨addr, rfl, rfl⟩
    | _ => rfl

/-- The dispatch ROM names a row for that row's opcode byte and for no other (R58, R64). -/
theorem ofOpcode_eq_some_iff {op : Byte} {m : Mnemonic} : Mnemonic.ofOpcode op = some m ↔ op = m.opcode :=
  ⟨Mnemonic.opcode_of_ofOpcode, fun h => h ▸ Mnemonic.ofOpcode_opcode m⟩

/-- Decoding looks up the row of the first byte and reads that row's operand from the others (R55, R57). -/
theorem decode_cons_eq_ok_iff {op : Byte} {tail rest : List Byte} {i : Instr} :
    decode (op :: tail) = .ok (i, rest) ↔
      Mnemonic.ofOpcode op = some i.mnemonic ∧ tail = i.operandBytes ++ rest := by
  cases hrow : Mnemonic.ofOpcode op with
  | none => simp [decode_cons_none hrow]
  | some m => rw [decode_cons_some hrow, decodeOperand_eq_ok_iff, Option.some_inj, eq_comm (a := m)]

/-- Settles O14: the opcode table is a bijection onto the rows, and each row's operand decoder inverts its operand bytes. -/
theorem decodeExactlyInvertsEncode : Obligations.DecodeExactlyInvertsEncode := by
  intro bytes rest i
  cases bytes with
  | nil => simp [decode, encode]
  | cons op tail => rw [decode_cons_eq_ok_iff, ofOpcode_eq_some_iff, encode, List.cons_append, List.cons.injEq]

/-! ## Legal and illegal opcode bytes -/

/-- Two bytes after the opcode are enough for every format (R55). -/
theorem decodeOperand_of_two_bytes (m : Mnemonic) (x y : Byte) (rest : List Byte) :
    ∃ i r, decodeOperand m (x :: y :: rest) = .ok (i, r) := by
  cases m <;> exact ⟨_, _, rfl⟩

/-- Settles O15: the dispatch ROM decides, and the operand of a known row never fails on two bytes. -/
theorem illegalOpcodesAreTheOthers : Obligations.IllegalOpcodesAreTheOthers := by
  intro op x y rest
  refine ⟨fun hop => decode_cons_none (ofOpcode_eq_none_iff.mpr hop) _, fun hop => ?_⟩
  cases hrow : Mnemonic.ofOpcode op with
  | none => exact absurd hop (ofOpcode_eq_none_iff.mp hrow)
  | some m =>
    rw [decode_cons_some hrow]
    exact decodeOperand_of_two_bytes m x y rest

theorem isNone_ofOpcode (op : Byte) : (Mnemonic.ofOpcode op).isNone = !decide (op ∈ opcodes) := by
  rw [Bool.eq_iff_iff, Option.isNone_iff_eq_none, ofOpcode_eq_none_iff, Bool.not_eq_true', decide_eq_false_iff_not]

/-- The numbers below 256 that are opcode bytes are the fourteen of R58. -/
theorem filter_opcodes_perm :
    ((List.range 256).filter fun n => BitVec.ofNat 8 n ∈ opcodes).Perm (opcodes.map BitVec.toNat) := by
  have hnodup : (opcodes.map BitVec.toNat).Nodup := by decide
  refine (List.perm_ext_iff_of_nodup (List.nodup_range.filter _) hnodup).mpr fun n => ?_
  simp only [List.mem_filter, List.mem_range, List.mem_map, decide_eq_true_eq]
  constructor
  · rintro ⟨hn, hop⟩
    exact ⟨BitVec.ofNat 8 n, hop, Nat.mod_eq_of_lt hn⟩
  · rintro ⟨op, hop, rfl⟩
    exact ⟨op.isLt, by simpa using hop⟩

/-- Settles O16: the 256 byte values are the fourteen opcodes and the illegal ones. -/
theorem countOfIllegalOpcodes : Obligations.CountOfIllegalOpcodes := by
  unfold Obligations.CountOfIllegalOpcodes
  have hsplit := List.length_eq_length_filter_add (l := List.range 256) fun n => decide (BitVec.ofNat 8 n ∈ opcodes)
  have hlegal : _ = 14 := filter_opcodes_perm.length_eq
  rw [List.length_range] at hsplit
  simp only [isNone_ofOpcode]
  omega

/-! ## The length of an instruction -/

/-- The length of a row, from its opcode byte (R57). -/
theorem length_of_opcode (m : Mnemonic) :
    BitVec.ofNat 16 m.format.length =
      if m.opcode ∈ [0xA9#8, 0xA2#8, 0xA0#8] then 2 else if m.opcode = 0x20#8 then 3 else 1 := by
  cases m <;> decide

/-- Settles O8: a known row is fetched with its format's length, any other opcode byte alone. -/
theorem lengthDecidedByOpcode : Obligations.LengthDecidedByOpcode := by
  intro s
  cases hrow : Mnemonic.ofOpcode (s.mem.read s.pc) with
  | none =>
    have hop := ofOpcode_eq_none_iff.mp hrow
    have hlegal : [0xA9#8, 0xA2#8, 0xA0#8] ⊆ opcodes := by decide
    have himm : s.mem.read s.pc ∉ [0xA9#8, 0xA2#8, 0xA0#8] := fun h => hop (hlegal h)
    have habs : s.mem.read s.pc ≠ 0x20#8 := fun h => hop (h ▸ by decide)
    rw [fetchInstr_none hrow, if_neg himm, if_neg habs]
  | some m =>
    obtain ⟨i, hfetch, hmnemonic, -⟩ := fetchInstr_some hrow
    rw [hfetch, Instr.length, hmnemonic, length_of_opcode, Mnemonic.opcode_of_ofOpcode hrow]

end Sys2Proof.Machine
end

section
/-! When a step is enabled, what decides the run state it leaves, and that a run has one end at most (40_step_cycle.md R71,
R72, R74). -/

namespace Sys2Proof.Machine

open Sys2Proof.Claims

/-! ## When a step is enabled -/

/-- No instruction stops without a next state: each of the shapes of `exec_cases` has one. -/
theorem exec_next (i : Instr) (s : State) : ∃ t, exec i s = .next t := by
  obtain ⟨_, _, h⟩ | ⟨_, -, h⟩ | ⟨-, h⟩ | ⟨-, h⟩ := exec_cases i s <;> exact ⟨_, h⟩

/-- A running machine steps, whatever byte is at `PC`: a known row is executed, any other is an exception (R70, R72). -/
theorem step_of_running {s : State} (hrun : s.run = .running) : ∃ t, step s = .next t := by
  cases hrow : Mnemonic.ofOpcode (s.mem.read s.pc) with
  | none => exact ⟨_, step_running_none hrun hrow⟩
  | some m =>
    obtain ⟨i, hfetch, -⟩ := fetchInstr_some hrow
    rw [step_running_some hrun hfetch]
    exact exec_next i _

/-- Settles O20: a disabled step answers no state, and an enabled one always does. -/
theorem stepEnabledIffRunning : Obligations.StepEnabledIffRunning :=
  fun _ => ⟨fun ⟨_, h⟩ => running_of_step h, step_of_running⟩

/-! ## The run state a step leaves -/

/-- The three arms of a step, each with the opcode bytes that select it (R71). -/
theorem step_outcome {s t : State} (h : step s = .next t) :
    (s.mem.read s.pc = 0x00#8 ∧ t.run = .halted) ∨
    (s.mem.read s.pc ∉ opcodes ∧ t.run = .faulted) ∨
    (s.mem.read s.pc ∈ opcodes ∧ s.mem.read s.pc ≠ 0x00#8 ∧ t.run = .running) := by
  have hrun := running_of_step h
  cases stepEffect_of_step h with
  | stop hop => exact .inl ⟨hop, rfl⟩
  | illegal hop => exact .inr (.inl ⟨hop, rfl⟩)
  | result m r v hop hdest =>
    have hbrk : m.opcode ≠ 0x00#8 := fun he => opcode_not_mem_of_destination hdest (by simp [he])
    exact .inr (.inr ⟨hop ▸ opcode_mem_opcodes m, hop ▸ hbrk, by simp [hrun]⟩)
  | call addr hop => exact .inr (.inr ⟨hop ▸ by decide, hop ▸ by decide, by simp [hrun]⟩)
  | ret hop => exact .inr (.inr ⟨hop ▸ by decide, hop ▸ by decide, by simp [hrun]⟩)

/-- Settles O22: the opcode bytes of the three arms exclude each other, and so do the run states they leave. -/
theorem outcomeDecidedByOpcode : Obligations.OutcomeDecidedByOpcode := by
  intro s hrun
  obtain ⟨t, ht⟩ := step_of_running hrun
  refine ⟨t, ht, ?_⟩
  obtain ⟨hop, hhalted⟩ | ⟨hop, hfaulted⟩ | ⟨hop, hbrk, hrunning⟩ := step_outcome ht
  · have hlegal : (0x00#8 : Byte) ∈ opcodes := by decide
    simp [hhalted, hop, hlegal]
  · have hbrk : s.mem.read s.pc ≠ 0x00#8 := fun he => hop (he ▸ by decide)
    simp [hfaulted, hop, hbrk]
  · simp [hrunning, hop, hbrk]

/-! ## The end of a run -/

/-- A run that has ended after `k` steps and after `n` steps has one end: both are its state after `k + n` (R24, R74). -/
theorem runSteps_eq_of_ended {s : State} {k n : Nat} (hk : (runSteps k s).run ≠ .running)
    (hn : (runSteps n s).run ≠ .running) : runSteps k s = runSteps n s :=
  calc runSteps k s
    _ = runSteps (k + n) s := (endOfARunStays s k n hk).symm
    _ = runSteps (n + k) s := by rw [Nat.add_comm]
    _ = runSteps n s := endOfARunStays s n k hn

/-- Settles O42: a good and a bad end of one start would be one state; safety is the absence of a bad end. -/
theorem goodAndBadEndsExclude : Obligations.GoodAndBadEndsExclude := by
  intro s
  refine ⟨?_, not_exists.symm⟩
  rintro ⟨⟨k, hhalted⟩, n, hfaulted⟩
  have hsame := runSteps_eq_of_ended (s := s) (k := k) (n := n) (by simp [hhalted]) (by simp [hfaulted])
  rw [hsame, hfaulted] at hhalted
  cases hhalted

end Sys2Proof.Machine
end

section
/-! A step from the bytes at `PC` (40_step_cycle.md R70), the statement of an instruction that produces a result, and the
loads (41_load_immediate.md R80 to R83). -/

namespace Sys2Proof.Machine

open Sys2Proof.Claims

/-! ## A step from the bytes at `PC` -/

/-- A running machine runs what the bytes at `PC` decode to, with `PC` past them (R70). -/
theorem step_of_decode {s : State} {i : Instr} {rest : List Byte} (hrun : s.run = .running)
    (hdecode : decode [s.mem.read s.pc, s.mem.read (s.pc + 1), s.mem.read (s.pc + 2)] = .ok (i, rest)) :
    step s = exec i (s.setPc (s.pc + BitVec.ofNat 16 i.length)) := by
  obtain ⟨hrow, -⟩ := decode_cons_eq_ok_iff.mp hdecode
  obtain ⟨j, hfetch, -, hfetched⟩ := fetchInstr_some hrow
  rw [hdecode] at hfetched
  cases hfetched
  exact step_running_some hrun hfetch

/-- The bytes of an instruction at an address are the front of the three bytes from there on (R55). -/
theorem bytesAt_encode {s : State} {a : Word} {i : Instr} (h : BytesAt s a (encode i)) :
    ∃ rest, [s.mem.read a, s.mem.read (a + 1), s.mem.read (a + 2)] = encode i ++ rest := by
  cases i with
  | lda imm | ldx imm | ldy imm =>
    obtain ⟨hop, himm, -⟩ := h
    exact ⟨[s.mem.read (a + 2)], by rw [hop, himm]; rfl⟩
  | jsr addr =>
    obtain ⟨hop, hlo, hhi, -⟩ := h
    have hlast : a + 1 + 1 = a + 2 := by bv_omega
    rw [hlast] at hhi
    exact ⟨[], by rw [hop, hlo, hhi]; rfl⟩
  | _ =>
    obtain ⟨hop, -⟩ := h
    exact ⟨[s.mem.read (a + 1), s.mem.read (a + 2)], by rw [hop]; rfl⟩

/-- The step on the bytes of an instruction runs that instruction (R55, R70). -/
theorem step_of_fetches {s : State} {i : Instr} (h : Fetches s (encode i)) :
    step s = exec i (s.setPc (s.pc + BitVec.ofNat 16 i.length)) := by
  obtain ⟨hrun, hbytes⟩ := h
  obtain ⟨rest, hfront⟩ := bytesAt_encode hbytes
  exact step_of_decode hrun ((decodeExactlyInvertsEncode _ rest i).mpr hfront)

/-! ## Instructions that produce a result -/

/-- A result written to a register changes that register, `Z` and `N`, whatever `PC` has become before it (R10, R18). -/
theorem produces_writeResult (s : State) (w : Word) (r : Reg) (v : Byte) :
    Produces r v s ((s.setPc w).writeResult r v) := by
  have hflags : FlagsFrom v s.p (setZN v s.p) := (setZNRecomputesZeroAndNegative v s.p).1
  have hmem : SameMemory s ((s.setPc w).writeResult r v) := fun b => by simp
  have hcontrol : SameControl s ((s.setPc w).writeResult r v) := by simp [SameControl]
  exact ⟨by simp [State.writeResult_readReg], fun q hq => by simp [State.writeResult_readReg, hq], by simpa using hflags,
    by simp, hmem, hcontrol⟩

/-- An instruction whose effect is one result completes, produces it, and leaves `PC` as it finds it. -/
theorem exec_produces {i : Instr} {s : State} {w : Word} {r : Reg} {v : Byte}
    (hexec : exec i (s.setPc w) = .next ((s.setPc w).writeResult r v)) :
    ∃ t, exec i (s.setPc w) = .next t ∧ Produces r v s t ∧ t.pc = w :=
  ⟨_, hexec, produces_writeResult s w r v, by simp⟩

/-- Such an instruction as a step: `PC` goes up by its length (R57, R70). -/
theorem step_produces {i : Instr} {s : State} {r : Reg} {v : Byte}
    (hexec : ∀ w : Word, exec i (s.setPc w) = .next ((s.setPc w).writeResult r v)) (h : Fetches s (encode i)) :
    ∃ t, step s = .next t ∧ Produces r v s t ∧ t.pc = s.pc + BitVec.ofNat 16 i.length := by
  rw [step_of_fetches h]
  exact exec_produces (hexec _)

/-! ## Loads -/

/-- Settles O24: each load writes one result, the immediate; its two bytes at `PC` are its encoding. -/
theorem loadImmediateInstructions : Obligations.LoadImmediateInstructions := by
  intro imm s
  have hlda (u : State) : exec (.lda imm) u = .next (u.writeResult .A imm) := rfl
  have hldx (u : State) : exec (.ldx imm) u = .next (u.writeResult .X imm) := rfl
  have hldy (u : State) : exec (.ldy imm) u = .next (u.writeResult .Y imm) := rfl
  exact ⟨exec_produces (w := s.pc) (hlda _), exec_produces (w := s.pc) (hldx _), exec_produces (w := s.pc) (hldy _),
    step_produces (i := .lda imm) fun _ => hlda _, step_produces (i := .ldx imm) fun _ => hldx _,
    step_produces (i := .ldy imm) fun _ => hldy _⟩

end Sys2Proof.Machine
end

section
/-! The transfers (42_transfer.md R85 to R89): one register's byte as the result in another. -/

namespace Sys2Proof.Machine

/-- An instruction that is a transfer has one result, the source's byte; where `PC` is does not matter to it (R89). -/
theorem exec_setPc_of_transfer {i : Instr} {src dst : Reg}
    (hexec : ∀ u : State, exec i u = .next (transfer src dst u)) (s : State) (w : Word) :
    exec i (s.setPc w) = .next ((s.setPc w).writeResult dst (s.readReg src)) := by
  rw [hexec, transfer, State.setPc_readReg]

/-- Settles O25: each row is one transfer, whose result is the source's byte; its opcode byte is its whole encoding. -/
theorem transferInstructions : Obligations.TransferInstructions := by
  intro s
  have htax := exec_setPc_of_transfer (i := .tax) (src := .A) (dst := .X) (fun _ => rfl) s
  have htxa := exec_setPc_of_transfer (i := .txa) (src := .X) (dst := .A) (fun _ => rfl) s
  have htay := exec_setPc_of_transfer (i := .tay) (src := .A) (dst := .Y) (fun _ => rfl) s
  have htya := exec_setPc_of_transfer (i := .tya) (src := .Y) (dst := .A) (fun _ => rfl) s
  exact ⟨exec_produces (htax s.pc), exec_produces (htxa s.pc), exec_produces (htay s.pc), exec_produces (htya s.pc),
    step_produces htax, step_produces htxa, step_produces htay, step_produces htya⟩

end Sys2Proof.Machine
end

section
/-! Increment and decrement (43_increment_decrement.md R90 to R94): one register up or down by one modulo 256, the result of
each instruction, their cancellation, and a row of them. -/

namespace Sys2Proof.Machine

open Sys2Proof.Claims

/-! ## The result of one instruction -/

/-- The sum with 1 wraps modulo 256 (R94). -/
theorem byte_add_one_eq_ofNat (v : Byte) : v + 1 = BitVec.ofNat 8 ((v.toNat + 1) % 256) := by
  bv_omega

/-- The difference with 1 wraps modulo 256, where it is the sum with 255 (R94). -/
theorem byte_sub_one_eq_ofNat (v : Byte) : v - 1 = BitVec.ofNat 8 ((v.toNat + 255) % 256) := by
  bv_omega

/-- An increment has one result, the wrapped sum; where `PC` is does not matter to it (R94). -/
theorem exec_setPc_of_increment {i : Instr} {r : Reg} (hexec : ∀ u : State, exec i u = .next (increment r u)) (s : State)
    (w : Word) :
    exec i (s.setPc w) = .next ((s.setPc w).writeResult r (BitVec.ofNat 8 (((s.readReg r).toNat + 1) % 256))) := by
  rw [hexec, increment, State.setPc_readReg, byte_add_one_eq_ofNat]

/-- A decrement has one result, the wrapped difference; where `PC` is does not matter to it (R94). -/
theorem exec_setPc_of_decrement {i : Instr} {r : Reg} (hexec : ∀ u : State, exec i u = .next (decrement r u)) (s : State)
    (w : Word) :
    exec i (s.setPc w) = .next ((s.setPc w).writeResult r (BitVec.ofNat 8 (((s.readReg r).toNat + 255) % 256))) := by
  rw [hexec, decrement, State.setPc_readReg, byte_sub_one_eq_ofNat]

/-- Settles O26: each row is one increment or decrement, whose result wraps; its opcode byte is its whole encoding. -/
theorem incrementDecrementInstructions : Obligations.IncrementDecrementInstructions := by
  intro s
  have hinx := exec_setPc_of_increment (i := .inx) (r := .X) (fun _ => rfl) s
  have hdex := exec_setPc_of_decrement (i := .dex) (r := .X) (fun _ => rfl) s
  have hiny := exec_setPc_of_increment (i := .iny) (r := .Y) (fun _ => rfl) s
  have hdey := exec_setPc_of_decrement (i := .dey) (r := .Y) (fun _ => rfl) s
  exact ⟨exec_produces (hinx s.pc), exec_produces (hdex s.pc), exec_produces (hiny s.pc), exec_produces (hdey s.pc),
    step_produces hinx, step_produces hdex, step_produces hiny, step_produces hdey⟩

/-! ## Cancellation and rows of increments -/

@[simp] theorem readReg_increment_same (r : Reg) (s : State) : (increment r s).readReg r = s.readReg r + 1 := by
  simp [increment, State.writeResult_readReg]

@[simp] theorem readReg_decrement_same (r : Reg) (s : State) : (decrement r s).readReg r = s.readReg r - 1 := by
  simp [decrement, State.writeResult_readReg]

theorem readReg_decrement_increment (r : Reg) (s : State) : (decrement r (increment r s)).readReg r = s.readReg r := by
  rw [readReg_decrement_same, readReg_increment_same, BitVec.add_sub_cancel]

theorem readReg_increment_decrement (r : Reg) (s : State) : (increment r (decrement r s)).readReg r = s.readReg r := by
  rw [readReg_increment_same, readReg_decrement_same, BitVec.sub_add_cancel]

/-- `n` increments in a row add `n` modulo 256 (R94). -/
theorem readReg_iterate_increment (r : Reg) (n : Nat) (s : State) :
    ((increment r)^[n] s).readReg r = s.readReg r + BitVec.ofNat 8 n := by
  induction n with
  | zero => simp
  | succ n ih =>
    calc ((increment r)^[n + 1] s).readReg r
      _ = s.readReg r + BitVec.ofNat 8 n + 1 := by rw [Function.iterate_succ_apply', readReg_increment_same, ih]
      _ = s.readReg r + BitVec.ofNat 8 (n + 1) := by simp [BitVec.add_assoc, BitVec.ofNat_add]

/-- `n` in a row of an instruction that always completes is its effect iterated. -/
theorem execTimes_of_next {i : Instr} {f : State → State} (hexec : ∀ u, exec i u = .next (f u)) (n : Nat) (s : State) :
    execTimes i n s = some (f^[n] s) := by
  induction n generalizing s with
  | zero => rfl
  | succ n ih => simp only [execTimes, hexec, ih, Function.iterate_succ_apply]

/-- Settles O27: the cancellations at `X` and at `Y`; a row of `INX` is `increment` iterated, and 256 is 0 modulo 256. -/
theorem incrementsWrapAndCancel : Obligations.IncrementsWrapAndCancel := by
  intro s
  have hrow (n : Nat) : ∃ t, execTimes .inx n s = some t ∧ t.x = s.x + BitVec.ofNat 8 n :=
    ⟨_, execTimes_of_next (f := increment .X) (fun _ => rfl) n s, readReg_iterate_increment .X n s⟩
  obtain ⟨t, hrun, hx⟩ := hrow 256
  have hwrap : s.x + BitVec.ofNat 8 256 = s.x := BitVec.add_zero s.x
  exact ⟨⟨_, _, rfl, rfl, readReg_decrement_increment .X s⟩, ⟨_, _, rfl, rfl, readReg_increment_decrement .X s⟩,
    ⟨_, _, rfl, rfl, readReg_decrement_increment .Y s⟩, ⟨_, _, rfl, rfl, readReg_increment_decrement .Y s⟩,
    hrow, t, hrun, hx.trans hwrap⟩

end Sys2Proof.Machine
end

section
/-! Calls and returns (44_subroutine.md R95 to R98): what a `JSR` and an `RTS` leave, their pairing, `SP` as a count of the
calls not yet returned from, and the stack cells of nested calls. -/

namespace Sys2Proof.Machine

open Sys2Proof.Claims

/-! ## One call, one return -/

/-- A push before a jump changes `SP`, `PC` and its two stack cells (R42, R95). -/
theorem pushes_setPc_pushWord (w addr : Word) (s : State) : Pushes w s ((pushWord w s).setPc addr) := by
  have hregs : SameRegs s ((pushWord w s).setPc addr) := fun q => by simp
  have hcontrol : SameControl s ((pushWord w s).setPc addr) := by simp [SameControl]
  exact ⟨pushWord_sp w s, hregs, pushWord_p w s, hcontrol,
    fun hwf => ⟨pushWord_read_high hwf w, pushWord_read_low hwf w, fun _ => pushWord_read_other hwf w⟩⟩

/-- Settles O28: both clauses are one push and one jump; only the pushed word differs in spelling. -/
theorem jsrCallsSubroutine : Obligations.JsrCallsSubroutine :=
  ⟨fun addr s => ⟨_, rfl, rfl, pushes_setPc_pushWord (s.pc - 1) addr s⟩,
    fun _ _ s h => ⟨_, step_of_fetches_jsr h, rfl, pushes_setPc_pushWord (s.pc + 2) _ s⟩⟩

/-- `RTS` completes, wherever `PC` is: it jumps past the word on top of the stack (R96). -/
theorem exec_rts_setPc (s : State) (w : Word) :
    exec .rts (s.setPc w) = .next ((s.setSp (s.sp + 2)).setPc (topWord s + 1)) := by
  have hexec : exec .rts (s.setPc w) =
      .next ((popWord (s.setPc w)).2.setPc ((popWord (s.setPc w)).1 + 1)) := rfl
  rw [hexec, popWord_eq]
  rfl

theorem step_of_fetches_rts {s : State} (h : Fetches s [0x60#8]) :
    step s = .next ((s.setSp (s.sp + 2)).setPc (topWord s + 1)) :=
  (step_of_fetches (i := .rts) h).trans (exec_rts_setPc s _)

theorem pops_setPc_setSp (s : State) (w : Word) : Pops s ((s.setSp (s.sp + 2)).setPc w) := by
  have hregs : SameRegs s ((s.setSp (s.sp + 2)).setPc w) := fun q => by simp
  exact ⟨rfl, hregs, rfl, fun _ => rfl, rfl, rfl, rfl⟩

/-- Settles O29: the instruction and the step leave one and the same state. -/
theorem rtsReturnsFromSubroutine : Obligations.RtsReturnsFromSubroutine :=
  fun s => ⟨⟨_, exec_rts_setPc s s.pc, rfl, pops_setPc_setSp s _⟩,
    fun h => ⟨_, step_of_fetches_rts h, rfl, pops_setPc_setSp s _⟩⟩

/-- With `SP` and the two cells of a push as the push left them, the word on top of the stack is the pushed one (R54,
R97). -/
theorem topWord_of_pushes {w : Word} {s t u : State} (hwf : s.mem.wf = true) (hpush : Pushes w s t) (hsp : u.sp = t.sp)
    (hhigh : u.mem.read (stackAddrOf s.sp) = t.mem.read (stackAddrOf s.sp))
    (hlow : u.mem.read (stackAddrOf (s.sp - 1)) = t.mem.read (stackAddrOf (s.sp - 1))) : topWord u = w := by
  obtain ⟨hdown, -, -, -, hcells⟩ := hpush
  obtain ⟨hreadHigh, hreadLow, -⟩ := hcells hwf
  have hone : u.sp + 1 = s.sp - 1 := by rw [hsp, hdown]; bv_omega
  have htwo : u.sp + 2 = s.sp := by rw [hsp, hdown]; bv_omega
  rw [topWord, hone, htwo, hhigh, hlow, hreadHigh, hreadLow, joinBytes_high_low]

/-- Settles O32: the `RTS` pops the word the `JSR` pushed, the address of the `JSR`'s last byte. -/
theorem callAndReturnPair : Obligations.CallAndReturnPair := by
  intro s lo hi hwf hcall
  have hpush := pushes_setPc_pushWord (s.pc + 2) (joinBytes hi lo) s
  refine ⟨_, step_of_fetches_jsr hcall, rfl, fun u hret hsp hhigh hlow => ?_⟩
  obtain ⟨hup, hregs, hp, -⟩ := pops_setPc_setSp u (topWord u + 1)
  refine ⟨_, step_of_fetches_rts hret, ?_, ?_, hregs, hp⟩
  · rw [State.setPc_pc, topWord_of_pushes hwf hpush hsp hhigh hlow]
    bv_omega
  · rw [hup, hsp, State.setPc_sp, pushWord_sp]
    bv_omega

/-! ## `SP` counts the calls not yet returned from -/

theorem netCalls_succ_of_next {s t : State} (h : step s = .next t) (k : Nat) :
    netCalls (k + 1) s = netCalls 1 s + netCalls k t := by
  simp only [netCalls, h, add_zero]

theorem netCalls_of_no_next {s : State} (h : ∀ t, step s ≠ .next t) (k : Nat) : netCalls k s = 0 := by
  cases k with
  | zero => rfl
  | succ k =>
    unfold netCalls
    split
    case h_1 t hnext => exact absurd hnext (h t)
    all_goals rfl

/-- The count of one step is decided by the opcode byte: 1 for `JSR`, -1 for `RTS`, else 0. -/
theorem netCalls_one {s t : State} (h : step s = .next t) :
    netCalls 1 s = if s.mem.read s.pc = 0x20#8 then 1 else if s.mem.read s.pc = 0x60#8 then -1 else 0 := by
  simp only [netCalls, h, add_zero]

/-- One step moves `SP` down by two per call it counts (R95, R96). -/
theorem step_sp_netCalls {s t : State} (h : step s = .next t) : t.sp = s.sp - BitVec.ofInt 8 (2 * netCalls 1 s) := by
  have hkeep (hcall : s.mem.read s.pc ≠ 0x20#8) (hret : s.mem.read s.pc ≠ 0x60#8) :
      s.sp = s.sp - BitVec.ofInt 8 (2 * netCalls 1 s) := by
    simp [netCalls_one h, hcall, hret]
  cases stepEffect_of_step h with
  | call addr hop => simp [netCalls_one h, hop]
  | ret hop =>
    have hup : s.sp + 2 = s.sp - BitVec.ofInt 8 (-2) := by bv_omega
    simpa [netCalls_one h, hop] using hup
  | result m r v hop hdest =>
    have hother := opcode_not_mem_of_destination hdest
    rw [← hop] at hother
    simp only [State.writeResult_sp, State.setPc_sp]
    exact hkeep (fun he => hother (by simp [he])) (fun he => hother (by simp [he]))
  | stop hop => exact hkeep (by simp [hop]) (by simp [hop])
  | illegal hop => exact hkeep (fun he => hop (he ▸ by decide)) (fun he => hop (he ▸ by decide))

/-- Along any run `SP` goes down by two for every call not yet returned from, modulo 256 (R98). -/
theorem runSteps_sp (k : Nat) (s : State) :
    (runSteps k s).sp = s.sp - BitVec.ofInt 8 (2 * netCalls k s) := by
  induction k generalizing s with
  | zero => simp [runSteps, netCalls]
  | succ k ih =>
    by_cases hnext : ∃ t, step s = .next t
    · obtain ⟨t, ht⟩ := hnext
      calc (runSteps (k + 1) s).sp
        _ = t.sp - BitVec.ofInt 8 (2 * netCalls k t) := by rw [runSteps_succ_of_next ht, ih]
        _ = s.sp - BitVec.ofInt 8 (2 * netCalls 1 s) - BitVec.ofInt 8 (2 * netCalls k t) := by rw [step_sp_netCalls ht]
        _ = s.sp - BitVec.ofInt 8 (2 * netCalls (k + 1) s) := by
          rw [netCalls_succ_of_next ht k, Int.mul_add, BitVec.ofInt_add, sub_sub]
    · rw [not_exists] at hnext
      simp [runSteps_of_no_next hnext, netCalls_of_no_next hnext]

/-- Settles O34: the count from the `SP` of reset; a nonnegative count puts the next push at the cells of R98. -/
theorem stackPointerCountsNestedCalls : Obligations.StackPointerCountsNestedCalls := by
  intro s k
  have hsp : (runSteps k (applyReset s)).sp = 0xFD#8 - BitVec.ofInt 8 (2 * netCalls k (applyReset s)) :=
    runSteps_sp k (applyReset s)
  refine ⟨hsp, fun n hn => ?_⟩
  have hcast : BitVec.ofInt 8 (2 * (n : Int)) = BitVec.ofNat 8 (2 * n) := BitVec.ofInt_natCast 8 (2 * n)
  rw [stackAddr, stackAddrOf_inj, stackAddrOf_inj, hsp, hn, hcast]
  constructor <;> bv_omega

/-! ## The cells of nested calls -/

/-- Settles O35: a stack address determines its `SP`, so the cells differ and recur as the offsets do modulo 256. -/
theorem stackHolds128Calls : Obligations.StackHolds128Calls := by
  simp only [Obligations.StackHolds128Calls, Ne, stackAddrOf_inj]
  refine ⟨fun n m hn hnm hm => ⟨?_, ?_⟩, fun n m => ?_, fun n => ⟨?_, ?_⟩⟩ <;> bv_omega

end Sys2Proof.Machine
end

section
/-! The halt (45_halt_and_illegal.md R100): what a `BRK` leaves, and that nothing follows it. -/

namespace Sys2Proof.Machine

open Sys2Proof.Claims

/-- A machine that has stopped has no step (R72). -/
theorem no_step_of_not_running {s : State} (h : s.run ≠ .running) : ¬ ∃ t, step s = .next t :=
  fun ⟨_, hnext⟩ => h (running_of_step hnext)

theorem exec_brk (s : State) : exec .brk s = .next (halt s) := rfl

/-- `BRK` as a step: the halt, with `PC` past its one byte (R70, R100). -/
theorem step_of_fetches_brk {s : State} (h : Fetches s [0x00#8]) : step s = .next (halt (s.setPc (s.pc + 1))) :=
  (step_of_fetches (i := .brk) h).trans (exec_brk _)

@[simp] theorem halt_run (s : State) : (halt s).run = .halted := rfl

/-- Settles O30: the instruction and the step are one `halt`, which writes `RUN` alone; a halted machine has no step. -/
theorem brkHalts : Obligations.BrkHalts := by
  intro s
  refine ⟨⟨_, exec_brk s, rfl⟩, fun h => ⟨_, step_of_fetches_brk h, rfl, ?_⟩⟩
  exact no_step_of_not_running (by simp)

end Sys2Proof.Machine
end

section
/-! The exception (60_exceptions.md R110): what an unknown opcode leaves, and that nothing follows it. -/

namespace Sys2Proof.Machine

open Sys2Proof.Claims

@[simp] theorem raiseIllegalOpcode_run (op : Byte) (addr : Word) (s : State) :
    (raiseIllegalOpcode op addr s).run = .faulted := rfl

/-- Settles O31: an opcode byte outside the table has no row, so the step is the exception, with `PC` past the one opcode
byte (log 5); a faulted machine has no step. -/
theorem unknownOpcodeFaults : Obligations.UnknownOpcodeFaults := by
  intro s hrun hop
  have hrow : Mnemonic.ofOpcode (s.mem.read s.pc) = none := ofOpcode_eq_none_iff.mpr hop
  refine ⟨_, step_running_none hrun hrow, rfl, ?_⟩
  exact no_step_of_not_running (by simp)

end Sys2Proof.Machine
end

section
/-! Memory in its canonical form (10_state.md R15, log 1): a write keeps it, it is determined by what is read, and every image
of 65536 bytes has one. -/

namespace Sys2Proof.Machine

/-- Settles O3: the law of `Memory.put` at an address of the space. -/
theorem writeKeepsCanonicalForm : Obligations.WriteKeepsCanonicalForm :=
  fun _ a v hwf => Memory.wf_write hwf a v

/-! ## Extensionality -/

theorem Memory.wfFrom_cons_iff {lo k : Nat} {v : Byte} {m : Memory} :
    Memory.wfFrom lo ((k, v) :: m) = true ↔
      lo ≤ k ∧ k < Config.memorySize ∧ v ≠ Memory.unlisted ∧ Memory.wfFrom (k + 1) m = true := by
  simp [Memory.wfFrom, and_assoc]

@[simp] theorem Memory.get_cons_self (k : Nat) (v : Byte) (m : Memory) : Memory.get ((k, v) :: m) k = v := by
  rw [Memory.get_cons, if_pos rfl]

/-- Outside the address space a canonical list has no entry (R30). -/
theorem Memory.get_outside {m : Memory} {lo n : Nat} (hwf : Memory.wfFrom lo m = true) (hn : Config.memorySize ≤ n) :
    Memory.get m n = Memory.unlisted := by
  induction m generalizing lo with
  | nil => rfl
  | cons c m ih =>
    obtain ⟨-, hk, -, hm⟩ := Memory.wfFrom_cons_iff.mp hwf
    rw [Memory.get_cons, if_neg (by omega)]
    exact ih hm

/-- No entry of a canonical list holds the unlisted byte, the first one included. -/
theorem Memory.get_head_ne_unlisted {lo k : Nat} {v : Byte} {m : Memory} (hm : Memory.wfFrom lo ((k, v) :: m) = true) :
    Memory.get ((k, v) :: m) k ≠ Memory.unlisted := by
  obtain ⟨-, -, hv, -⟩ := Memory.wfFrom_cons_iff.mp hm
  rwa [Memory.get_cons_self]

/-- Two canonical lists that read alike at the first address of one: the other begins no later, since below its first entry it
reads as the unlisted byte, which no entry holds. -/
theorem Memory.head_le_head {lo lo' k k' : Nat} {v v' : Byte} {m n : Memory}
    (hm : Memory.wfFrom lo ((k, v) :: m) = true) (hn : Memory.wfFrom lo' ((k', v') :: n) = true)
    (hread : Memory.get ((k, v) :: m) k = Memory.get ((k', v') :: n) k) : k' ≤ k := by
  obtain ⟨-, hk', hv', hn'⟩ := Memory.wfFrom_cons_iff.mp hn
  by_contra hlt
  have hcanon : Memory.wfFrom k' ((k', v') :: n) = true := Memory.wfFrom_cons_iff.mpr ⟨le_rfl, hk', hv', hn'⟩
  exact Memory.get_head_ne_unlisted hm (hread.trans (Memory.get_below hcanon (not_le.mp hlt)))

/-- Canonical lists that read alike are equal: their first entries agree, and so do the reads of their tails, which
list nothing at the first address. -/
theorem Memory.eq_of_get_eq {m n : Memory} {lo lo' : Nat} (hm : Memory.wfFrom lo m = true)
    (hn : Memory.wfFrom lo' n = true) (hread : ∀ j, Memory.get m j = Memory.get n j) : m = n := by
  induction m generalizing n lo lo' with
  | nil =>
    cases n with
    | nil => rfl
    | cons c n => exact absurd (hread c.1).symm (Memory.get_head_ne_unlisted hn)
  | cons c m ih =>
    obtain ⟨k, v⟩ := c
    cases n with
    | nil => exact absurd (hread k) (Memory.get_head_ne_unlisted hm)
    | cons c' n =>
      obtain ⟨k', v'⟩ := c'
      obtain rfl : k = k' :=
        Nat.le_antisymm (Memory.head_le_head hn hm (hread k').symm) (Memory.head_le_head hm hn (hread k))
      obtain rfl : v = v' := by simpa using hread k
      obtain ⟨-, -, -, hm'⟩ := Memory.wfFrom_cons_iff.mp hm
      obtain ⟨-, -, -, hn'⟩ := Memory.wfFrom_cons_iff.mp hn
      have htail (j : Nat) : Memory.get m j = Memory.get n j := by
        by_cases hj : k = j
        · rw [← hj, Memory.get_below hm' (Nat.lt_succ_self k), Memory.get_below hn' (Nat.lt_succ_self k)]
        · simpa [Memory.get_cons, hj] using hread j
      rw [ih hm' hn' htail]

/-- Settles O4: the reads cover the address space, and outside it no canonical list has an entry. -/
theorem equalMemoriesAreEqualData : Obligations.EqualMemoriesAreEqualData := by
  intro m n hm hn hread
  refine Memory.eq_of_get_eq hm hn fun j => ?_
  by_cases hj : j < Config.memorySize
  · have haddr : (BitVec.ofNat 16 j).toNat = j := Nat.mod_eq_of_lt hj
    simpa only [Memory.read, haddr] using hread (BitVec.ofNat 16 j)
  · rw [Memory.get_outside hm (not_lt.mp hj), Memory.get_outside hn (not_lt.mp hj)]

/-! ## Every image -/

/-- The memory in which the first `n` bytes of an image have been written, from address 0 up. -/
def Memory.ofImage (image : Word → Byte) : Nat → Memory
  | 0 => []
  | n + 1 => (Memory.ofImage image n).write (BitVec.ofNat 16 n) (image (BitVec.ofNat 16 n))

theorem Memory.wf_ofImage (image : Word → Byte) (n : Nat) : (Memory.ofImage image n).wf = true := by
  induction n with
  | zero => exact Memory.wf_nil
  | succ n ih => exact Memory.wf_write ih _ _

theorem Memory.read_ofImage (image : Word → Byte) {n : Nat} {a : Word} (ha : a.toNat < n) :
    (Memory.ofImage image n).read a = image a := by
  induction n with
  | zero => cases ha
  | succ n ih =>
    rw [Memory.ofImage, Memory.read_write (Memory.wf_ofImage image n)]
    by_cases hlast : a = BitVec.ofNat 16 n
    · rw [if_pos hlast, hlast]
    · have hne : a.toNat ≠ n := fun he => hlast (by rw [← he, BitVec.ofNat_toNat, BitVec.setWidth_eq])
      rw [if_neg hlast, ih (by omega)]

/-- Settles O5: all 65536 bytes of the image written one after the other. -/
theorem everyImageIsAMemory : Obligations.EveryImageIsAMemory :=
  fun image => ⟨Memory.ofImage image (2 ^ 16), Memory.wf_ofImage image _, fun a => Memory.read_ofImage image a.isLt⟩

end Sys2Proof.Machine
end

section
/-! Encodings and source lines of 30_encoding.md: what every instruction's encoding is like (R55, R57), words written out from
the table (R58), and the assembler's lines (section 5, R62, log 14). -/

namespace Sys2Proof

/-- Every instruction's encoding has the length of its row and begins with its opcode; every instruction is well-formed. -/
theorem Laws.EncodeShape.statement (i : Instr) : Laws.EncodeShape.Statement i := by
  cases i with
  | lda imm => exact Laws.EncodeShape.lda imm
  | ldx imm => exact Laws.EncodeShape.ldx imm
  | ldy imm => exact Laws.EncodeShape.ldy imm
  | tax => exact Laws.EncodeShape.tax
  | txa => exact Laws.EncodeShape.txa
  | tay => exact Laws.EncodeShape.tay
  | tya => exact Laws.EncodeShape.tya
  | inx => exact Laws.EncodeShape.inx
  | dex => exact Laws.EncodeShape.dex
  | iny => exact Laws.EncodeShape.iny
  | dey => exact Laws.EncodeShape.dey
  | jsr addr => exact Laws.EncodeShape.jsr addr
  | rts => exact Laws.EncodeShape.rts
  | brk => exact Laws.EncodeShape.brk

theorem encode_length (i : Instr) : (encode i).length = i.length :=
  (Laws.EncodeShape.statement i).1

theorem Instr.length_le (i : Instr) : i.length ≤ Config.longestInstr := by
  obtain ⟨-, -, hle, -⟩ := Laws.EncodeShape.statement i
  exact hle

theorem Instr.wellFormed_eq_true (i : Instr) : i.wellFormed = true := by
  obtain ⟨-, -, -, -, hwf⟩ := Laws.EncodeShape.statement i
  exact hwf

theorem decode_encode_append (i : Instr) (rest : List Byte) : decode (encode i ++ rest) = .ok (i, rest) :=
  (Machine.decodeExactlyInvertsEncode _ rest i).mpr rfl

/-- Settles O13: each word of the table is the encoding of its instruction and the bytes left over; no row has opcode 0xFF. -/
theorem wordsOfTheTableDecode : Obligations.WordsOfTheTableDecode :=
  ⟨decode_encode_append (.lda 0x10#8) [], decode_encode_append (.ldx 0xFF#8) [0x00#8], decode_encode_append .tax [],
    decode_encode_append .inx [], decode_encode_append (.jsr 0x9000#16) [], decode_encode_append .rts [],
    decode_encode_append .brk [], decode_cons_none (op := 0xFF#8) rfl []⟩

/-! ## Source lines -/

/-- A well-formed line of a row without operand has none (R62). -/
theorem operand_none_of_wellFormed {m : Mnemonic} {o : AsmOperand} (hformat : m.format = .imp)
    (hwf : AsmLine.wellFormed ⟨m, o⟩ = true) : o = .none := by
  cases o with
  | none => rfl
  | _ => simp [AsmLine.wellFormed, AsmLine.operandFits, hformat] at hwf

/-- The operand of a well-formed line of format IMM is a byte (R62). -/
theorem operand_immediate_of_wellFormed {m : Mnemonic} {o : AsmOperand} (hformat : m.format = .imm)
    (hwf : AsmLine.wellFormed ⟨m, o⟩ = true) : ∃ b : Byte, o = .immediate b.toNat := by
  cases o with
  | immediate n =>
    have hn : n < 2 ^ 8 := by simpa [AsmLine.wellFormed, AsmLine.operandFits, AsmOperand.inRange, hformat] using hwf
    exact ⟨BitVec.ofNat 8 n, by rw [BitVec.toNat_ofNat, Nat.mod_eq_of_lt hn]⟩
  | _ => simp [AsmLine.wellFormed, AsmLine.operandFits, hformat] at hwf

/-- The operand of a well-formed line of format ABS is a word (R62). -/
theorem operand_absolute_of_wellFormed {m : Mnemonic} {o : AsmOperand} (hformat : m.format = .abs)
    (hwf : AsmLine.wellFormed ⟨m, o⟩ = true) : ∃ w : Word, o = .absolute w.toNat := by
  cases o with
  | absolute n =>
    have hn : n < 2 ^ 16 := by simpa [AsmLine.wellFormed, AsmLine.operandFits, AsmOperand.inRange, hformat] using hwf
    exact ⟨BitVec.ofNat 16 n, by rw [BitVec.toNat_ofNat, Nat.mod_eq_of_lt hn]⟩
  | _ => simp [AsmLine.wellFormed, AsmLine.operandFits, hformat] at hwf

theorem assemble_toAsm (i : Instr) : i.toAsm.assemble = some i := by
  cases i with
  | lda b | ldx b | ldy b => simp [Instr.toAsm, AsmLine.assemble, b.isLt]
  | jsr w => simp [Instr.toAsm, AsmLine.assemble, w.isLt]
  | _ => rfl

/-- Every well-formed line is an instruction's line (R62). -/
theorem exists_toAsm_eq_of_wellFormed {l : AsmLine} (hwf : l.wellFormed = true) : ∃ i : Instr, l = i.toAsm := by
  obtain ⟨m, o⟩ := l
  cases hformat : m.format with
  | imp =>
    obtain rfl := operand_none_of_wellFormed hformat hwf
    cases m with
    | tax => exact ⟨.tax, rfl⟩
    | txa => exact ⟨.txa, rfl⟩
    | tay => exact ⟨.tay, rfl⟩
    | tya => exact ⟨.tya, rfl⟩
    | inx => exact ⟨.inx, rfl⟩
    | dex => exact ⟨.dex, rfl⟩
    | iny => exact ⟨.iny, rfl⟩
    | dey => exact ⟨.dey, rfl⟩
    | rts => exact ⟨.rts, rfl⟩
    | brk => exact ⟨.brk, rfl⟩
    | _ => cases hformat
  | imm =>
    obtain ⟨b, rfl⟩ := operand_immediate_of_wellFormed hformat hwf
    cases m with
    | lda => exact ⟨.lda b, rfl⟩
    | ldx => exact ⟨.ldx b, rfl⟩
    | ldy => exact ⟨.ldy b, rfl⟩
    | _ => cases hformat
  | abs =>
    obtain ⟨w, rfl⟩ := operand_absolute_of_wellFormed hformat hwf
    cases m with
    | jsr => exact ⟨.jsr w, rfl⟩
    | _ => cases hformat

/-- Settles O17: by the format of the line's mnemonic; an instruction's well-formedness is its line's. -/
theorem assemblerLinesAreInstructions : Obligations.AssemblerLinesAreInstructions := by
  refine ⟨fun i => ⟨i.wellFormed_eq_true, assemble_toAsm i⟩, fun l => ⟨exists_toAsm_eq_of_wellFormed, ?_⟩⟩
  rintro ⟨i, rfl⟩
  exact i.wellFormed_eq_true

end Sys2Proof
end

section
/-! A placed instruction word (log 8) and the step that runs it (40_step_cycle.md R70), and the steps that are not enabled
(R72, log 3). -/

namespace Sys2Proof.Machine

open Sys2Proof.Claims

/-- Settles O18: the step on the decoded bytes, with the write of `PC` written out. -/
theorem stepRunsTheDecodedInstruction : Obligations.StepRunsTheDecodedInstruction :=
  fun _ _ _ hrun hdecode => step_of_decode hrun hdecode

/-- Settles O21: one named fault per run state without a step. -/
theorem disabledStepIsANamedFault : Obligations.DisabledStepIsANamedFault :=
  fun s => ⟨fun hrun => by simp only [step, hrun], fun hrun => by simp only [step, hrun],
    fun hrun => by simp only [step, hrun]⟩

/-! ## The bytes of a word number -/

theorem tableWord_lt (bs : List Byte) : tableWord bs < 2 ^ (8 * bs.length) := by
  induction bs with
  | nil => decide
  | cons b bs ih =>
    have hb := b.isLt
    rw [tableWord, List.length_cons, Nat.mul_succ, Nat.pow_add]
    omega

theorem ofNat_tableWord_cons (b : Byte) (bs : List Byte) : BitVec.ofNat 8 (tableWord (b :: bs)) = b := by
  apply BitVec.eq_of_toNat_eq
  have hb := b.isLt
  rw [tableWord, BitVec.toNat_ofNat]
  omega

theorem tableWord_cons_div (b : Byte) (bs : List Byte) : tableWord (b :: bs) / 256 = tableWord bs := by
  have hb := b.isLt
  rw [tableWord]
  omega

/-- The bytes of a list's number are the list, filled up to the length of the longest instruction. -/
theorem tableWordBytes_tableWord {bs : List Byte} (hlen : bs.length ≤ Config.longestInstr) :
    ∃ filler, tableWordBytes (8 * bs.length) (tableWord bs) = bs ++ filler := by
  have hthird : tableWord bs / 65536 = tableWord bs / 256 / 256 := by rw [Nat.div_div_eq_div_mul]
  rw [tableWordBytes, Nat.mod_eq_of_lt (tableWord_lt bs)]
  simp only [hthird]
  match bs, hlen with
  | [], _ => exact ⟨_, rfl⟩
  | [b], _ =>
    rw [ofNat_tableWord_cons]
    exact ⟨_, rfl⟩
  | [b, c], _ =>
    rw [tableWord_cons_div, ofNat_tableWord_cons, ofNat_tableWord_cons]
    exact ⟨_, rfl⟩
  | [b, c, d], _ => exact ⟨[], by simp only [tableWord_cons_div, ofNat_tableWord_cons, List.append_nil]⟩

/-! ## Bytes written and read again -/

/-- Bytes written from an address on leave every other address alone (R32). -/
theorem Memory.read_writeBytes_ne {m : Memory} (hwf : m.wf = true) {a b : Word} {bs : List Byte}
    (hb : ∀ k < bs.length, b ≠ a + BitVec.ofNat 16 k) : (m.writeBytes a bs).read b = m.read b := by
  induction bs generalizing m a with
  | nil => rfl
  | cons v bs ih =>
    have hhead : b ≠ a := by simpa using hb 0 (Nat.succ_pos _)
    have htail : ∀ k < bs.length, b ≠ a + 1 + BitVec.ofNat 16 k := by
      intro k hk
      have hnext := hb (k + 1) (Nat.succ_lt_succ hk)
      rwa [Nat.add_comm, BitVec.ofNat_add, ← BitVec.add_assoc] at hnext
    rw [Memory.writeBytes, ih (Memory.wf_write hwf a v) htail, Memory.read_write_ne hwf v hhead]

/-- Bytes written from an address on are there, as long as they do not come round to it again (R34, R55). -/
theorem bytesAt_of_mem_eq_writeBytes {s : State} {m : Memory} (hwf : m.wf = true) {a : Word} {bs : List Byte}
    (hlen : bs.length ≤ Config.memorySize) (hmem : s.mem = m.writeBytes a bs) : BytesAt s a bs := by
  induction bs generalizing m a with
  | nil => trivial
  | cons v bs ih =>
    have hshort : bs.length < 65536 := hlen
    refine ⟨?_, ih (Memory.wf_write hwf a v) hshort.le hmem⟩
    have hfresh : ∀ k < bs.length, a ≠ a + 1 + BitVec.ofNat 16 k := by
      intro k hk
      bv_omega
    rw [hmem, Memory.writeBytes, Memory.read_writeBytes_ne (Memory.wf_write hwf a v) hfresh,
      Memory.read_write_same hwf]

theorem bytesAt_of_append {s : State} {a : Word} {bs cs : List Byte} (h : BytesAt s a (bs ++ cs)) : BytesAt s a bs := by
  induction bs generalizing a with
  | nil => trivial
  | cons b bs ih => exact ⟨h.1, ih h.2⟩

/-! ## The placed instruction -/

/-- The bytes of an instruction placed with `State.withFetchWord` are what the next step fetches (log 8). -/
theorem fetches_withFetchWord {s : State} (hwf : s.mem.wf = true) (i : Instr) :
    Fetches (s.withFetchWord (8 * i.length) (tableWord (encode i))) (encode i) := by
  have hlen : (encode i).length ≤ Config.longestInstr := (encode_length i).trans_le i.length_le
  obtain ⟨filler, hbytes⟩ := tableWordBytes_tableWord hlen
  rw [encode_length] at hbytes
  refine ⟨rfl, bytesAt_of_append (cs := filler) ?_⟩
  rw [← hbytes]
  exact bytesAt_of_mem_eq_writeBytes hwf (show 3 ≤ Config.memorySize by decide) rfl

/-- Settles O19: the placed bytes are fetched, and placing leaves `PC` where it is. -/
theorem placedInstructionIsRun : Obligations.PlacedInstructionIsRun :=
  fun i _ hwf => step_of_fetches (fetches_withFetchWord hwf i)

end Sys2Proof.Machine
end

section
/-! `Reset()` (70_reset_and_hazards.md R130, R131): what it leaves, and that only memory matters to it. -/

namespace Sys2Proof.Machine

/-- Settles O36: constants, memory, and the little-endian word at the vector. -/
theorem resetEffect : Obligations.ResetEffect :=
  fun s => ⟨rfl, rfl, rfl, rfl, rfl, wordReadIsLittleEndian s.mem resetVector, rfl, rfl, rfl, rfl⟩

/-- Settles O37: `applyReset` names no field of the state before it but memory. -/
theorem resetForgetsAllButMemory : Obligations.ResetForgetsAllButMemory :=
  fun _ _ hmem => ⟨rfl, by simp only [applyReset, hmem]⟩

/-- Settles O38: `State.reset` is what `Reset()` leaves of itself, and the reset state depends on memory alone (O37). -/
theorem resetStateIsResetOfUnlistedMemory : Obligations.ResetStateIsResetOfUnlistedMemory := by
  intro s hmem
  calc State.reset
    _ = applyReset State.reset := rfl
    _ = applyReset s := (resetForgetsAllButMemory State.reset s hmem.symm).2

end Sys2Proof.Machine
end
